-- ==== Sys2Proof/Word.lean ====
section
/-! DEFINITION. The word types of the core (00_scope R6, R7; 10_state R10, R11, R14, R15). -/

namespace Sys2Proof

/-- A memory cell or a V register: 8 bits (10_state R11, R27). -/
abbrev Byte := BitVec 8

/-- The instruction word `op`, bit 15 the most significant (30_encoding R60, R61). -/
abbrev OpWord := BitVec 16

/-- The index register and the field NNN: 12 bits (10_state R14, 30_encoding R61). -/
abbrev Addr := BitVec 12

/-- The program counter and a stack slot: 13 bits (10_state R15, R17, R18). -/
abbrev PcWord := BitVec 13

/-- A register number, 0 to 15 (10_state R11, 30_encoding R61). -/
abbrev Reg := Fin 16

/-- A key code, 0 to 15 (10_state R25). -/
abbrev Key := Fin 16

/-- Register 15, the only status flag (10_state R12). -/
def VF : Reg := 15

end Sys2Proof
end

