-- ==== Sys2Proof/Config.lean ====
section
/-! DEFINITION. What an implementation fixes, and the free values: the constants of 00_scope R6, the types of the
parameters of 00_scope R7, and the random input RND. The values the parameters take at reset stand in
Machine/Params.lean. -/

namespace Sys2Proof

/-- MEM_SIZE: 4096 cells, addresses 0x000 to 0xFFF (00_scope R6). -/
def Config.memSize : Nat := 4096

/-- ORIGIN: the load address and the PC after Load (00_scope R6, 60_exceptions R202). -/
def Config.origin : Nat := 0x200

/-- The number of font bytes, 16 sprites of 5 (20_memory R41, R42). -/
def Config.fontSize : Nat := 80

/-- FONT_STRIDE: bytes per digit sprite (00_scope R6). -/
def Config.fontStride : Nat := 5

/-- INSTR_BYTES: bytes per instruction (00_scope R6, 30_encoding R60). -/
def Config.instrBytes : Nat := 2

/-- DRAW_EDGE: what a sprite pixel outside the grid does (43_display R153). -/
inductive DrawEdge where
  | wrap
  | clip
  deriving DecidableEq, Repr

/-- BCD_ZERO: what FX33 writes for V[X] = 0 (42_index_and_memory R133). -/
inductive BcdZero where
  | oneDigit
  | noWrite
  deriving DecidableEq, Repr

/-- FONT: the 80 bytes of the digit sprites, digit `d` from `5 * d` (20_memory R41, R44). -/
abbrev Font := Vector Byte Config.fontSize

/-- The parameters of the machine that are no state of the core (00_scope R7, R9). -/
structure Params where
  /-- TIMER_FLOOR, an integer at most 0 or "none" (92_eei_decisions, the table of open parameters):
  `some n` is the floor -n. -/
  timerFloor : Option Nat
  drawEdge : DrawEdge
  bcdZero : BcdZero
  /-- FONT, what Reset seeds 0x000 to 0x04F with (20_memory R44, 10_state R30). -/
  font : Font
  deriving DecidableEq, Repr

/-- RND, the free input of CXNN: the n-th byte drawn (41_alu R123, 60_exceptions R195). It has no body: nothing can be
proved of a value of it. DESIGN CHOICE (notes/assumptions/3.md), safe: every stream of bytes is admitted. -/
opaque Config.rnd : Nat → Byte

end Sys2Proof
end

