-- ==== Sys2Proof/Machine/Params.lean ====
section
/-! DEFINITION. The values the machine's parameters take at reset (00_scope R7), and what Reset leaves in memory
(10_state R30, 20_memory R44). -/

namespace Sys2Proof.Machine

/-- The default of FONT (20_memory R44): digit `d` is the five bytes from `5 * d`. PRESUMED (notes/assumptions/5.md): the
source gives no byte of it, the table is the one of most CHIP-8 systems; unsafe for a claim about the shape of a digit. -/
def defaultFontBytes : List Byte :=
  [0xF0, 0x90, 0x90, 0x90, 0xF0,   -- 0
   0x20, 0x60, 0x20, 0x20, 0x70,   -- 1
   0xF0, 0x10, 0xF0, 0x80, 0xF0,   -- 2
   0xF0, 0x10, 0xF0, 0x10, 0xF0,   -- 3
   0x90, 0x90, 0xF0, 0x10, 0x10,   -- 4
   0xF0, 0x80, 0xF0, 0x10, 0xF0,   -- 5
   0xF0, 0x80, 0xF0, 0x90, 0xF0,   -- 6
   0xF0, 0x10, 0x20, 0x40, 0x40]   -- 7
  ++
  [0xF0, 0x90, 0xF0, 0x90, 0xF0,   -- 8
   0xF0, 0x90, 0xF0, 0x10, 0xF0,   -- 9
   0xF0, 0x90, 0xF0, 0x90, 0x90,   -- A
   0xE0, 0x90, 0xE0, 0x90, 0xE0,   -- B
   0xF0, 0x80, 0x80, 0x80, 0xF0,   -- C
   0xE0, 0x90, 0x90, 0x90, 0xE0,   -- D
   0xF0, 0x80, 0xF0, 0x80, 0xF0,   -- E
   0xF0, 0x80, 0xF0, 0x80, 0x80]   -- F

/-- The default of FONT as the parameter takes it (20_memory R44). -/
def defaultFont : Font := ⟨defaultFontBytes.toArray, rfl⟩

/-- The parameters at the spec's default and values taken (00_scope R7): no timer floor, wrap, one digit, the default
font. DESIGN CHOICE (notes/assumptions/4.md; the font PRESUMED, notes/assumptions/5.md), unsafe where a claim leans on one
of them; every statement holds for all values. -/
def paramsTaken : Params := ⟨none, .wrap, .oneDigit, defaultFont⟩

/-- What an address that memory does not list reads as: what Reset leaves there, the font in 0x000 to 0x04F and 0
elsewhere (10_state R30, 20_memory R41, R42). -/
def resetByte (f : Font) (a : Nat) : Byte := f.getD a 0

end Sys2Proof.Machine
end

