-- ==== Sys2Proof/Machine/State.lean ====
section
/-! DEFINITION. The state of the core (10_state R10), the state after Reset (10_state R30), and the reasons a step can
stop (60_exceptions R181). -/

namespace Sys2Proof.Machine

/-- Memory: the cells that do not hold what Reset leaves there, addresses strictly rising (notes/assumptions/6.md). -/
abbrev Memory := List Host.Cell

/-- The display buffer: 32 rows from the top, bit `x` of a row being the pixel of column `x` (10_state R24;
notes/assumptions/8.md). -/
abbrev Display := Vector (BitVec 64) 32

/-- The whole state of the core (10_state R10), and two fields of the model's own: `params` and `rndIndex`. -/
structure State where
  /-- MEM, 4096 byte cells (10_state R27, 20_memory R40). -/
  mem : Memory
  /-- V[0] to V[15] (10_state R11). -/
  v : Vector Byte 16
  /-- I, the index register (10_state R14). -/
  i : Addr
  /-- PC, the address of the next instruction to fetch (10_state R15). -/
  pc : PcWord
  /-- STACK, 16 saved return addresses (10_state R18). -/
  stack : Vector PcWord 16
  /-- SP, the number of return addresses saved, 0 to 16 (10_state R18, R19). -/
  sp : Fin 17
  /-- DT, the delay timer, signed (10_state R22). -/
  dt : Int
  /-- ST, the sound timer, signed (10_state R22). -/
  st : Int
  /-- FB, the display buffer (10_state R24). -/
  fb : Display
  /-- KEY, the input latch (10_state R25). -/
  key : Option Key
  /-- WAIT, the awaiting-input flag (10_state R26). -/
  wait : Bool
  /-- The MODEL's own: the machine's parameters (00_scope R7, R9), which nothing changes (notes/assumptions/4.md). -/
  params : Params
  /-- The MODEL's own: how many bytes of RND were drawn (41_alu R123; notes/assumptions/3.md). -/
  rndIndex : Nat
  deriving DecidableEq, Repr

/-- The architecture-level errors (60_exceptions R181), held as faults (60_exceptions R188). Each is safe: no claim is
provable of a run that contains one (notes/assumptions/1.md). -/
inductive Fault where
  /-- Code 1, raised by CALL when SP = 16 (40_cycle_and_control R89). Safe. -/
  | stackOverflow
  /-- Code 2, raised by RET when SP = 0 (40_cycle_and_control R87). Safe. -/
  | stackUnderflow
  /-- Code 3, raised by BCD, STM and Load when a cell to be written lies above 0xFFF; the lowest such address
  (42_index_and_memory R133, R134; 60_exceptions R202). Safe. -/
  | memWriteOutOfRange (addr : Nat)
  /-- Code 4, raised by FNT when V[X] > 15; the value of V[X] (42_index_and_memory R132). Safe. -/
  | invalidFontIndex (v : Byte)
  /-- Code 5, raised by fetch when PC >= 0xFFF; the PC (40_cycle_and_control R82). Safe. -/
  | fetchOutOfRange (pc : PcWord)
  /-- Code 6, raised by DRW and LDM when a cell to be read lies above 0xFFF; the lowest such address
  (42_index_and_memory R135, 43_display R151). Safe. -/
  | memReadOutOfRange (addr : Nat)
  /-- Code 7, raised by dispatch of a word that matches no row; the word (30_encoding R67). Safe. -/
  | reservedOpcode (op : OpWord)
  deriving DecidableEq, Repr

/-- What has no meaning. No instruction is refused; the two refusals besides `notModelled` are the host's calls outside
its contract (60_exceptions R203, R204; 93 U14). -/
inductive Refusal where
  /-- An instruction that `exec` does not model yet: none. Safe. -/
  | notModelled (mnemonic : String)
  /-- Raised by Load: a word is not a 16-bit value (60_exceptions R203). Safe. -/
  | loadWordOutOfContract (word : Nat)
  /-- Raised by Press: the code is not in 0..15 (60_exceptions R204). Safe. -/
  | pressCodeOutOfContract (code : Nat)
  deriving DecidableEq, Repr

/-- The state after Reset, and so at power-on (10_state R30, 60_exceptions R201). -/
def State.reset : State where
  mem := []
  v := Vector.replicate 16 0
  i := 0
  pc := 0
  stack := Vector.replicate 16 0
  sp := 0
  dt := 0
  st := 0
  fb := Vector.replicate 32 0
  key := none
  wait := false
  params := paramsTaken
  rndIndex := 0

end Sys2Proof.Machine
end

