-- ==== Sys2Proof/Machine/Flags.lean ====
section
/-! DEFINITION. The arithmetic and every flag computation of the spec (41_alu R116 to R122, 42_index_and_memory R131):
exact integers first, then the reduction the rule shows. A pair is the result and the value of VF. -/

namespace Sys2Proof.Machine

/-- 8XY4: the sum, wrapped by 256, and the carry (41_alu R117). -/
def addWithCarry (a b : Byte) : Byte × Byte :=
  let s := a.toNat + b.toNat
  if s ≥ 256 then (BitVec.ofNat 8 (s - 256), 1) else (BitVec.ofNat 8 s, 0)

/-- 8XY5 and 8XY7: the difference `a - b`, with 255 (not 256) added on borrow, and 1 when there is no borrow
(41_alu R118, R120). -/
def subWithBorrow (a b : Byte) : Byte × Byte :=
  let d : Int := (a.toNat : Int) - (b.toNat : Int)
  if d < 0 then (BitVec.ofInt 8 (d + 255), 0) else (BitVec.ofInt 8 d, 1)

/-- 8XY6: the bit about to be shifted out, `a AND 1` (41_alu R119). -/
def bitOutRight (a : Byte) : Byte := a &&& 1#8

/-- 8XY6: the logical shift right by one (41_alu R119). -/
def shiftRight (a : Byte) : Byte := a >>> 1

/-- 8XYE: the bit about to be shifted out, `(a AND 0x80) >> 7` (41_alu R121). -/
def bitOutLeft (a : Byte) : Byte := (a &&& 0x80#8) >>> 7

/-- 8XYE: the shift left by one, cut to a byte (41_alu R121). -/
def shiftLeft (a : Byte) : Byte := BitVec.ofNat 8 ((a.toNat <<< 1) &&& 0xFF)

/-- FX1E: the sum, masked to 12 bits past 0xFFF, and the overflow flag (42_index_and_memory R131). -/
def indexAdd (i : Addr) (a : Byte) : Addr × Byte :=
  let s := i.toNat + a.toNat
  if s > 0xFFF then (BitVec.ofNat 12 (s &&& 0xFFF), 1) else (BitVec.ofNat 12 s, 0)

/-- What FX07 delivers: `DT mod 256`, the low eight bits of the two's complement (44_keypad_and_timers R164;
UNVERIFIED, notes/assumptions/14.md). -/
def timerByte (t : Int) : Byte := BitVec.ofInt 8 t

end Sys2Proof.Machine
end

