-- ==== Sys2Proof/Syntax.lean ====
section
/-! DEFINITION. The instructions: one constructor per row of spec/opcode_table.json (30_encoding R64), in the table's
order. A field that an instruction decodes and ignores (30_encoding R69) is kept, so that an encoding loses no bit. -/

namespace Sys2Proof

/-- The 35 instructions (30_encoding R64). `x`, `y` are register numbers, `nn` the immediate byte, `nnn` the 12-bit
address and `n` the number of sprite rows (30_encoding R61, R63). -/
inductive Instr where
  /-- 00E0 -/
  | cls
  /-- 00EE -/
  | ret
  /-- 1NNN -/
  | jp (nnn : Addr)
  /-- 2NNN -/
  | call (nnn : Addr)
  /-- 3XNN -/
  | sei (x : Reg) (nn : Byte)
  /-- 4XNN -/
  | snei (x : Reg) (nn : Byte)
  /-- 5XY0 -/
  | ser (x y : Reg)
  /-- 6XNN -/
  | ldi (x : Reg) (nn : Byte)
  /-- 7XNN -/
  | addi (x : Reg) (nn : Byte)
  /-- 8XY0 -/
  | mov (x y : Reg)
  /-- 8XY1 -/
  | or (x y : Reg)
  /-- 8XY2 -/
  | and (x y : Reg)
  /-- 8XY3 -/
  | xor (x y : Reg)
  /-- 8XY4 -/
  | add (x y : Reg)
  /-- 8XY5 -/
  | sub (x y : Reg)
  /-- 8XY6; `y` is ignored -/
  | shr (x y : Reg)
  /-- 8XY7 -/
  | subn (x y : Reg)
  /-- 8XYE; `y` is ignored -/
  | shl (x y : Reg)
  /-- 9XY0 -/
  | sner (x y : Reg)
  /-- ANNN -/
  | lda (nnn : Addr)
  /-- BNNN -/
  | jpv0 (nnn : Addr)
  /-- CXNN -/
  | rnd (x : Reg) (nn : Byte)
  /-- DXYN -/
  | drw (x y : Reg) (n : Fin 16)
  /-- EX9E -/
  | skp (x : Reg)
  /-- EXA1 -/
  | sknp (x : Reg)
  /-- FX07 -/
  | gdt (x : Reg)
  /-- FX0A; `x` is ignored -/
  | wkey (x : Reg)
  /-- FX15 -/
  | sdt (x : Reg)
  /-- FX18 -/
  | sst (x : Reg)
  /-- FX1E -/
  | adda (x : Reg)
  /-- FX29 -/
  | fnt (x : Reg)
  /-- FX33 -/
  | bcd (x : Reg)
  /-- FX55 -/
  | stm (x : Reg)
  /-- FX65 -/
  | ldm (x : Reg)
  /-- 0NNN but 00E0 and 00EE; `nnn` is ignored -/
  | sys (nnn : Addr)
  deriving DecidableEq, Repr

end Sys2Proof
end

