-- ==== Sys2Proof/WellFormed.lean ====
section
/-! DEFINITION. When an `Instr` stands for a word of its row. The types already bound every field (30_encoding R61, R72);
what is left is that 0NNN does not take the two words of CLS and RET (30_encoding R64, R66). -/

namespace Sys2Proof

/-- `SYS` may not carry the low twelve bits of 0x00E0 or 0x00EE: those words are CLS and RET (30_encoding R64). Every
other combination of operands is legal (30_encoding R72). -/
def Instr.wf : Instr → Bool
  | .sys nnn => nnn != 0x0E0#12 && nnn != 0x0EE#12
  | .cls => true
  | .ret => true
  | .jp _ => true
  | .call _ => true
  | .sei _ _ => true
  | .snei _ _ => true
  | .ser _ _ => true
  | .ldi _ _ => true
  | .addi _ _ => true
  | .mov _ _ => true
  | .or _ _ => true
  | .and _ _ => true
  | .xor _ _ => true
  | .add _ _ => true
  | .sub _ _ => true
  | .shr _ _ => true
  | .subn _ _ => true
  | .shl _ _ => true
  | .sner _ _ => true
  | .lda _ => true
  | .jpv0 _ => true
  | .rnd _ _ => true
  | .drw _ _ _ => true
  | .skp _ => true
  | .sknp _ => true
  | .gdt _ => true
  | .wkey _ => true
  | .sdt _ => true
  | .sst _ => true
  | .adda _ => true
  | .fnt _ => true
  | .bcd _ => true
  | .stm _ => true
  | .ldm _ => true

end Sys2Proof
end

