-- ==== Sys2Proof/Decode.lean ====
section
/-! DEFINITION. The decoder and the encoder (30_encoding R60 to R69), the byte order of an instruction word
(20_memory R45), and the opcode table's match and mask of each row (30_encoding R64). -/

namespace Sys2Proof

/-- Why a string of bytes is no instruction. -/
inductive DecodeError where
  /-- The word matches no row of the opcode table (30_encoding R67, R68). -/
  | reserved (op : OpWord)
  /-- Fewer than the two bytes of an instruction are there (30_encoding R60). -/
  | truncated
  deriving DecidableEq, Repr

/-! ### Fields (30_encoding R61) -/

/-- `v[3:0]` of a 4-bit field as a number 0 to 15. -/
def nibbleOf (b : BitVec 4) : Fin 16 := ⟨b.toNat, b.isLt⟩

/-- A number 0 to 15 as the 4-bit field that holds it. -/
def nibbleBits (r : Fin 16) : BitVec 4 := BitVec.ofNat 4 r.val

/-- The primary nibble `op[15:12]`. -/
def fieldP (op : OpWord) : Fin 16 := nibbleOf (op.extractLsb' 12 4)

/-- `X = op[11:8]`. -/
def fieldX (op : OpWord) : Reg := nibbleOf (op.extractLsb' 8 4)

/-- `Y = op[7:4]`. -/
def fieldY (op : OpWord) : Reg := nibbleOf (op.extractLsb' 4 4)

/-- `N = op[3:0]`. -/
def fieldN (op : OpWord) : Fin 16 := nibbleOf (op.extractLsb' 0 4)

/-- `NN = op[7:0]`. -/
def fieldNN (op : OpWord) : Byte := op.extractLsb' 0 8

/-- `NNN = op[11:0]`. -/
def fieldNNN (op : OpWord) : Addr := op.extractLsb' 0 12

/-! ### Decoding (30_encoding R65) -/

/-- Family 8 is told apart by `N` (30_encoding R65). -/
def decode8 (op : OpWord) : Except DecodeError Instr :=
  match fieldN op with
  | 0x0 => .ok (.mov (fieldX op) (fieldY op))
  | 0x1 => .ok (.or (fieldX op) (fieldY op))
  | 0x2 => .ok (.and (fieldX op) (fieldY op))
  | 0x3 => .ok (.xor (fieldX op) (fieldY op))
  | 0x4 => .ok (.add (fieldX op) (fieldY op))
  | 0x5 => .ok (.sub (fieldX op) (fieldY op))
  | 0x6 => .ok (.shr (fieldX op) (fieldY op))
  | 0x7 => .ok (.subn (fieldX op) (fieldY op))
  | 0xE => .ok (.shl (fieldX op) (fieldY op))
  | _ => .error (.reserved op)

/-- Family E is told apart by `NN` (30_encoding R65). -/
def decodeE (op : OpWord) : Except DecodeError Instr :=
  if fieldNN op = 0x9E#8 then .ok (.skp (fieldX op))
  else if fieldNN op = 0xA1#8 then .ok (.sknp (fieldX op))
  else .error (.reserved op)

/-- Family F is told apart by `NN` (30_encoding R65). -/
def decodeF (op : OpWord) : Except DecodeError Instr :=
  if fieldNN op = 0x07#8 then .ok (.gdt (fieldX op))
  else if fieldNN op = 0x0A#8 then .ok (.wkey (fieldX op))
  else if fieldNN op = 0x15#8 then .ok (.sdt (fieldX op))
  else if fieldNN op = 0x18#8 then .ok (.sst (fieldX op))
  else if fieldNN op = 0x1E#8 then .ok (.adda (fieldX op))
  else if fieldNN op = 0x29#8 then .ok (.fnt (fieldX op))
  else if fieldNN op = 0x33#8 then .ok (.bcd (fieldX op))
  else if fieldNN op = 0x55#8 then .ok (.stm (fieldX op))
  else if fieldNN op = 0x65#8 then .ok (.ldm (fieldX op))
  else .error (.reserved op)

/-- The decode algorithm of 30_encoding R65: total, one row or reserved for every word. -/
def decode (op : OpWord) : Except DecodeError Instr :=
  match fieldP op with
  | 0x0 =>
    if op = 0x00E0#16 then .ok .cls
    else if op = 0x00EE#16 then .ok .ret
    else .ok (.sys (fieldNNN op))
  | 0x1 => .ok (.jp (fieldNNN op))
  | 0x2 => .ok (.call (fieldNNN op))
  | 0x3 => .ok (.sei (fieldX op) (fieldNN op))
  | 0x4 => .ok (.snei (fieldX op) (fieldNN op))
  | 0x5 => if fieldN op = 0 then .ok (.ser (fieldX op) (fieldY op)) else .error (.reserved op)
  | 0x6 => .ok (.ldi (fieldX op) (fieldNN op))
  | 0x7 => .ok (.addi (fieldX op) (fieldNN op))
  | 0x8 => decode8 op
  | 0x9 => if fieldN op = 0 then .ok (.sner (fieldX op) (fieldY op)) else .error (.reserved op)
  | 0xA => .ok (.lda (fieldNNN op))
  | 0xB => .ok (.jpv0 (fieldNNN op))
  | 0xC => .ok (.rnd (fieldX op) (fieldNN op))
  | 0xD => .ok (.drw (fieldX op) (fieldY op) (fieldN op))
  | 0xE => decodeE op
  | _ => decodeF op   -- 0xF, the one value left

/-- The big-endian word of two bytes: the byte at the lower address is `op[15:8]` (20_memory R45). -/
def wordOfBytes (hi lo : Byte) : OpWord := hi ++ lo

/-- `op[15:8]`, the byte at the lower address (20_memory R45, R46). -/
def highByte (op : OpWord) : Byte := op.extractLsb' 8 8

/-- `op[7:0]`, the byte at the higher address (20_memory R45, R46). -/
def lowByte (op : OpWord) : Byte := op.extractLsb' 0 8

/-- Decoding of a string of bytes: the instruction and the bytes after it, or the reason there is none. -/
def decodeBytes : List Byte → Except DecodeError (Instr × List Byte)
  | hi :: lo :: rest =>
    match decode (wordOfBytes hi lo) with
    | .ok i => .ok (i, rest)
    | .error e => .error e
  | _ => .error .truncated

/-! ### Encoding (30_encoding R62, R64) -/

/-- Format XNN: P, X, NN. -/
def encXNN (p : BitVec 4) (x : Reg) (nn : Byte) : OpWord := p ++ (nibbleBits x ++ nn)

/-- Format XYN: P, X, Y, N. -/
def encXYN (p : BitVec 4) (x y : Reg) (n : BitVec 4) : OpWord :=
  p ++ (nibbleBits x ++ (nibbleBits y ++ n))

/-- Format NNN: P, NNN. -/
def encNNN (p : BitVec 4) (nnn : Addr) : OpWord := p ++ nnn

/-- The word of an instruction (30_encoding R64). -/
def encode : Instr → OpWord
  | .cls => 0x00E0#16
  | .ret => 0x00EE#16
  | .jp nnn => encNNN 0x1#4 nnn
  | .call nnn => encNNN 0x2#4 nnn
  | .sei x nn => encXNN 0x3#4 x nn
  | .snei x nn => encXNN 0x4#4 x nn
  | .ser x y => encXYN 0x5#4 x y 0x0#4
  | .ldi x nn => encXNN 0x6#4 x nn
  | .addi x nn => encXNN 0x7#4 x nn
  | .mov x y => encXYN 0x8#4 x y 0x0#4
  | .or x y => encXYN 0x8#4 x y 0x1#4
  | .and x y => encXYN 0x8#4 x y 0x2#4
  | .xor x y => encXYN 0x8#4 x y 0x3#4
  | .add x y => encXYN 0x8#4 x y 0x4#4
  | .sub x y => encXYN 0x8#4 x y 0x5#4
  | .shr x y => encXYN 0x8#4 x y 0x6#4
  | .subn x y => encXYN 0x8#4 x y 0x7#4
  | .shl x y => encXYN 0x8#4 x y 0xE#4
  | .sner x y => encXYN 0x9#4 x y 0x0#4
  | .lda nnn => encNNN 0xA#4 nnn
  | .jpv0 nnn => encNNN 0xB#4 nnn
  | .rnd x nn => encXNN 0xC#4 x nn
  | .drw x y n => encXYN 0xD#4 x y (nibbleBits n)
  | .skp x => encXNN 0xE#4 x 0x9E#8
  | .sknp x => encXNN 0xE#4 x 0xA1#8
  | .gdt x => encXNN 0xF#4 x 0x07#8
  | .wkey x => encXNN 0xF#4 x 0x0A#8
  | .sdt x => encXNN 0xF#4 x 0x15#8
  | .sst x => encXNN 0xF#4 x 0x18#8
  | .adda x => encXNN 0xF#4 x 0x1E#8
  | .fnt x => encXNN 0xF#4 x 0x29#8
  | .bcd x => encXNN 0xF#4 x 0x33#8
  | .stm x => encXNN 0xF#4 x 0x55#8
  | .ldm x => encXNN 0xF#4 x 0x65#8
  | .sys nnn => encNNN 0x0#4 nnn

/-- The bytes of an instruction as memory holds them, the lower address first (20_memory R45). -/
def encodeBytes (i : Instr) : List Byte := [highByte (encode i), lowByte (encode i)]

/-! ### The opcode table (30_encoding R64): a word selects a row when `op AND mask = match` -/

/-- The `mask` column of an instruction's row. -/
def rowMask : Instr → OpWord
  | .cls | .ret => 0xFFFF#16
  | .jp _ | .call _ | .sei _ _ | .snei _ _ | .ldi _ _ | .addi _ _ | .lda _ | .jpv0 _ | .rnd _ _ | .drw _ _ _
  | .sys _ => 0xF000#16
  | .ser _ _ | .mov _ _ | .or _ _ | .and _ _ | .xor _ _ | .add _ _ | .sub _ _ | .shr _ _ | .subn _ _ | .shl _ _
  | .sner _ _ => 0xF00F#16
  | .skp _ | .sknp _ | .gdt _ | .wkey _ | .sdt _ | .sst _ | .adda _ | .fnt _ | .bcd _ | .stm _ | .ldm _ => 0xF0FF#16

/-- The `match` column of an instruction's row. -/
def rowMatch : Instr → OpWord
  | .cls => 0x00E0#16
  | .ret => 0x00EE#16
  | .jp _ => 0x1000#16
  | .call _ => 0x2000#16
  | .sei _ _ => 0x3000#16
  | .snei _ _ => 0x4000#16
  | .ser _ _ => 0x5000#16
  | .ldi _ _ => 0x6000#16
  | .addi _ _ => 0x7000#16
  | .mov _ _ => 0x8000#16
  | .or _ _ => 0x8001#16
  | .and _ _ => 0x8002#16
  | .xor _ _ => 0x8003#16
  | .add _ _ => 0x8004#16
  | .sub _ _ => 0x8005#16
  | .shr _ _ => 0x8006#16
  | .subn _ _ => 0x8007#16
  | .shl _ _ => 0x800E#16
  | .sner _ _ => 0x9000#16
  | .lda _ => 0xA000#16
  | .jpv0 _ => 0xB000#16
  | .rnd _ _ => 0xC000#16
  | .drw _ _ _ => 0xD000#16
  | .skp _ => 0xE09E#16
  | .sknp _ => 0xE0A1#16
  | .gdt _ => 0xF007#16
  | .wkey _ => 0xF00A#16
  | .sdt _ => 0xF015#16
  | .sst _ => 0xF018#16
  | .adda _ => 0xF01E#16
  | .fnt _ => 0xF029#16
  | .bcd _ => 0xF033#16
  | .stm _ => 0xF055#16
  | .ldm _ => 0xF065#16
  | .sys _ => 0x0000#16

/-! ### The host's numbering of a table word -/

/-- The bytes, lowest address first, of the instruction whose low `nbits` bits are `w` and whose other bits are 0: one
16-bit word, big-endian (20_memory R45). -/
def tableBytes (nbits w : Nat) : List Byte :=
  let op := BitVec.ofNat 16 (w % 2 ^ nbits)
  [highByte op, lowByte op]

/-- The instruction that the decoder reads from a word of the opcode table, none where it refuses. -/
def decodeTableWord (nbits w : Nat) : Option Instr :=
  match decodeBytes (tableBytes nbits w) with
  | .ok (i, _) => some i
  | .error _ => none

end Sys2Proof
end

