-- ==== Sys2Proof/Machine/Operands.lean ====
section
/-! DEFINITION. Every operand form that is more than a register or an immediate: the effective addresses `I + k`
(42_index_and_memory R136), the cells FX33 writes (R133), the target of BNNN (40_cycle_and_control R93), the place of a
sprite pixel (43_display R153), and the comparison of the latch with a byte (44_keypad_and_timers R162). -/

namespace Sys2Proof.Machine

/-- The effective addresses `I + 0, ..., I + (n - 1)`: integers, never reduced (42_index_and_memory R136). -/
def effectiveAddresses (i : Addr) (n : Nat) : List Nat := (List.range n).map (i.toNat + ·)

/-- The lowest address above 0xFFF of a rising list, if there is one (42_index_and_memory R136, 60_exceptions R184). -/
def firstOutside (as : List Nat) : Option Nat := as.find? (fun a => decide (a ≥ Config.memSize))

/-- The cells FX33 writes for the value `b` and what each receives: only the digits that exist, and for 0 what BCD_ZERO
says (42_index_and_memory R133; UNVERIFIED for 0, notes/assumptions/4.md). -/
def bcdCells (z : BcdZero) (i : Addr) (b : Byte) : List Host.Cell :=
  let h := BitVec.ofNat 8 (b.toNat / 100)
  let t := BitVec.ofNat 8 (b.toNat / 10 % 10)
  let o := BitVec.ofNat 8 (b.toNat % 10)
  if b.toNat ≥ 100 then [(i.toNat, h), (i.toNat + 1, t), (i.toNat + 2, o)]
  else if b.toNat ≥ 10 then [(i.toNat + 1, t), (i.toNat + 2, o)]
  else if b.toNat ≥ 1 then [(i.toNat + 2, o)]
  else match z with
    | .oneDigit => [(i.toNat + 2, 0)]
    | .noWrite => []

/-- The target of BNNN: `(V[0] + op) AND 0x0FFF`, `op` the whole word 0xBNNN (40_cycle_and_control R93). -/
def offsetTarget (v0 : Byte) (nnn : Addr) : PcWord :=
  BitVec.ofNat 13 ((v0.toNat + (0xB#4 ++ nnn).toNat) &&& 0x0FFF)

/-- `Place`: the grid position, column then row, of the pixel at `(xs, ys)`, or none when it falls off
(43_display R153; UNVERIFIED off the grid, notes/assumptions/4.md). -/
def place (e : DrawEdge) (xs ys : Nat) : Option (Fin 64 × Fin 32) :=
  match e with
  | .wrap => some (Fin.ofNat 64 xs, Fin.ofNat 32 ys)
  | .clip => if xs ≤ 63 ∧ ys ≤ 31 then some (Fin.ofNat 64 xs, Fin.ofNat 32 ys) else none

/-- The latch equals the byte: a latched code compared with the whole byte; `none` equals nothing
(44_keypad_and_timers R162; UNVERIFIED, notes/assumptions/16.md). -/
def latchEquals (key : Option Key) (b : Byte) : Bool :=
  match key with
  | none => false
  | some k => k.val == b.toNat

end Sys2Proof.Machine
end

