-- ==== Sys2Proof/Machine/Ops.lean ====
section
/-! DEFINITION. The named operations over memory, the registers, the stack, the display and the timers, raising an error,
and the fetch. Every meaning and every host event is written over them. -/

namespace Sys2Proof.Machine

/-- Nothing to set, or a state to go on with. -/
abbrev Result := Host.Outcome State Fault Refusal

/-! ### Memory (20_memory R40 to R57) -/

/-- The byte at an address: what the list says, else what Reset leaves there under the font. -/
def Memory.get (f : Font) : Memory → Nat → Byte
  | [], a => resetByte f a
  | c :: rest, a => if c.1 = a then c.2 else Memory.get f rest a

/-- The list without an address. -/
def Memory.erase (m : Memory) (a : Nat) : Memory := m.filter (fun c => c.1 != a)

/-- A cell put before the first one of a higher address. -/
def Memory.insertCell (c : Host.Cell) : Memory → Memory
  | [] => [c]
  | d :: rest => if c.1 < d.1 then c :: d :: rest else d :: Memory.insertCell c rest

/-- A byte written: only the addressed cell changes (20_memory R51), and the canonical form is kept. -/
def Memory.put (f : Font) (m : Memory) (a : Nat) (b : Byte) : Memory :=
  if b = resetByte f a then m.erase a else Memory.insertCell (a, b) (m.erase a)

/-- Several bytes written, in the order of the list. -/
def Memory.putAll (f : Font) (m : Memory) (cells : List Host.Cell) : Memory :=
  cells.foldl (fun n c => n.put f c.1 c.2) m

/-- The canonical form: addresses strictly rising and inside the address space, and no entry equal to what an unlisted
address reads as. -/
abbrev Memory.wf (f : Font) (m : Memory) : Prop :=
  m.Pairwise (fun c d => c.1 < d.1) ∧ ∀ c ∈ m, c.1 < Config.memSize ∧ c.2 ≠ resetByte f c.1

/-- MemRead(addr, 1) of an address that was checked (00_scope section 4). -/
def State.byteAt (s : State) (a : Nat) : Byte := s.mem.get s.params.font a

/-! ### One update per piece of state -/

def State.setMem (s : State) (m : Memory) : State := { s with mem := m }
def State.setIndex (s : State) (i : Addr) : State := { s with i := i }
def State.setPc (s : State) (pc : PcWord) : State := { s with pc := pc }
def State.setStack (s : State) (k : Vector PcWord 16) (sp : Fin 17) : State := { s with stack := k, sp := sp }
def State.setDt (s : State) (t : Int) : State := { s with dt := t }
def State.setSt (s : State) (t : Int) : State := { s with st := t }
def State.setDisplay (s : State) (fb : Display) : State := { s with fb := fb }
def State.setKey (s : State) (k : Option Key) : State := { s with key := k }
def State.setWait (s : State) (w : Bool) : State := { s with wait := w }
def State.setRndIndex (s : State) (n : Nat) : State := { s with rndIndex := n }

/-- Cells written to memory in the order of the list, their addresses checked before (00_scope section 4, MemWrite). -/
def State.putCells (s : State) (cells : List Host.Cell) : State := s.setMem (s.mem.putAll s.params.font cells)

/-! ### The general registers (10_state R11): no register is hard-wired -/

/-- V[x] read. -/
def State.reg (s : State) (x : Reg) : Byte := s.v[x]

/-- V[x] written. -/
def State.setReg (s : State) (x : Reg) (b : Byte) : State := { s with v := s.v.set x b }

/-! ### Raising an error (60_exceptions R181, R185, R186)

There is no trap entry and no return from one (60_exceptions R185, R187): no register is saved, no status or mode
changes and control goes nowhere. The instruction ends with the error as its outcome; every check stands before every
write, so it has changed nothing (42_index_and_memory R136). The state that the cycle then leaves is in
Machine/Events.lean. -/

/-- `raise E(info)` (00_scope section 4; 60_exceptions R185). -/
def raise (e : Fault) : Result := .fault e

/-! ### Checked accesses to several cells (42_index_and_memory R136) -/

/-- The bounds of a load: the error with the lowest address above 0xFFF, or what is done once all can be read
(20_memory R47). -/
def checkedRead (as : List Nat) (go : Result) : Result :=
  match firstOutside as with
  | some a => raise (.memReadOutOfRange a)
  | none => go

/-- The bounds of a store: the error with the lowest address above 0xFFF and nothing written, or every cell written in
ascending order (20_memory R48, 42_index_and_memory R133, R134). -/
def storeCells (cells : List Host.Cell) (s : State) : Result :=
  match firstOutside (cells.map Prod.fst) with
  | some a => raise (.memWriteOutOfRange a)
  | none => .next (s.putCells cells)

/-- The cells FX55 writes: V[k] to `I + k` for k = 0..X (42_index_and_memory R134). -/
def registerCells (s : State) (x : Reg) : List Host.Cell :=
  (List.range (x.val + 1)).map (fun k => (s.i.toNat + k, s.reg (Fin.ofNat 16 k)))

/-- FX65 once its cells can be read: V[k] from `I + k` for k = 0..X (42_index_and_memory R135). -/
def loadRegisters (s : State) (x : Reg) : State :=
  (List.range (x.val + 1)).foldl (fun t k => t.setReg (Fin.ofNat 16 k) (s.byteAt (s.i.toNat + k))) s

/-! ### The return stack (10_state R19) -/

/-- Push: an error when 16 addresses are saved; the slot SP is written and SP counts one more. -/
def push (a : PcWord) (s : State) : Except Fault State :=
  if h : s.sp.val < 16 then .ok (s.setStack (s.stack.set s.sp.val a) ⟨s.sp.val + 1, by omega⟩)
  else .error .stackOverflow

/-- Pop: an error when none is saved; SP counts one less and the slot it then names is read, not cleared. -/
def pop (s : State) : Except Fault (PcWord × State) :=
  if h : s.sp.val = 0 then .error .stackUnderflow
  else .ok (s.stack[s.sp.val - 1], s.setStack s.stack ⟨s.sp.val - 1, by omega⟩)

/-! ### Control transfer -/

/-- A skip: a further 2 on top of the 2 of fetch (00_scope section 4, 40_cycle_and_control R95). -/
def skipIf (c : Bool) (s : State) : State := if c then s.setPc (s.pc + 2) else s

/-! ### The display (10_state R24, 43_display R151) -/

/-- `FB[y][x]`. -/
def Display.pixel (fb : Display) (x : Fin 64) (y : Fin 32) : Bool := fb[y].getLsbD x.val

/-- `FB[y][x] <- FB[y][x] XOR p`. -/
def Display.xorPixel (fb : Display) (x : Fin 64) (y : Fin 32) (p : Bool) : Display :=
  fb.set y (fb[y] ^^^ (BitVec.setWidth 64 (BitVec.ofBool p) <<< x.val))

/-- The display with every pixel 0 (43_display R150). -/
def Display.clear : Display := Vector.replicate 32 0

/-- One row of a sprite: eight pixels from `(x0, ys)`, most significant bit first (43_display R151). -/
def Display.xorRow (e : DrawEdge) (x0 ys : Nat) (b : Byte) (fb : Display) : Display :=
  (List.range 8).foldl (fun f bit =>
    match place e (x0 + bit) ys with
    | some (x, y) => f.xorPixel x y (b.getLsbD (7 - bit))
    | none => f) fb

/-- A sprite: row `r` is the r-th byte of the list, at `ys = y0 + r` (43_display R151). -/
def Display.xorRows (e : DrawEdge) (x0 : Nat) : Nat → List Byte → Display → Display
  | _, [], fb => fb
  | ys, b :: rest, fb => Display.xorRows e x0 (ys + 1) rest (Display.xorRow e x0 ys b fb)

/-! ### The timers (10_state R21, R22) -/

/-- `T <- max(T - 1, TIMER_FLOOR)`: no lower bound when there is no floor (10_state R22). -/
def decrementTimer (floor : Option Nat) (t : Int) : Int :=
  match floor with
  | none => t - 1
  | some n => max (t - 1) (-(n : Int))

/-- Step 1 of the cycle: both timers fall by one (40_cycle_and_control R80). -/
def decrementTimers (s : State) : State :=
  (s.setDt (decrementTimer s.params.timerFloor s.dt)).setSt (decrementTimer s.params.timerFloor s.st)

/-- Step 2 of the cycle: a latched key ends the wait (40_cycle_and_control R81; UNVERIFIED, notes/assumptions/15.md). -/
def wakeTest (s : State) : State := if s.wait && s.key.isSome then s.setWait false else s

/-! ### The random input (41_alu R123) -/

/-- One fresh draw of RND, and the state that has consumed it. -/
def drawRandom (s : State) : Byte × State := (Config.rnd s.rndIndex, s.setRndIndex (s.rndIndex + 1))

/-! ### Fetch (40_cycle_and_control R82) -/

/-- The two bytes at PC and PC + 1 as a big-endian word, and PC advanced by 2; refused when PC >= 0xFFF, with PC as it
was. -/
def fetch (s : State) : Except Fault (OpWord × State) :=
  if s.pc.toNat ≥ 0xFFF then .error (.fetchOutOfRange s.pc)
  else .ok (wordOfBytes (s.byteAt s.pc.toNat) (s.byteAt (s.pc.toNat + 1)), s.setPc (s.pc + 2))

/-- A state whose next fetch takes place (PC at or below 0xFFE, and no wait that no key ends) and reads the given bytes.
PC and WAIT change only where the fetch needs it (notes/assumptions/9.md). -/
def placeInstruction (s : State) (bytes : List Byte) : State :=
  let s := if s.pc.toNat ≥ 0xFFF then s.setPc (BitVec.ofNat 13 Config.origin) else s
  let s := s.setWait (s.wait && s.key.isSome)
  s.putCells (bytes.mapIdx (fun k b => (s.pc.toNat + k, b)))

end Sys2Proof.Machine
end

