-- ==== Sys2Proof/Machine/Alu.lean ====
section
/-! DEFINITION. Register loads, arithmetic, logic, shifts and the random byte (41_alu R110 to R123). The instructions with
a flag do their two writes in the order of their row (41_alu R116; UNVERIFIED where X = 0xF, notes/assumptions/13.md). -/

namespace Sys2Proof.Machine

/-- The result into V[X], then the flag into VF (41_alu R116). -/
def writeResultThenFlag (x : Reg) (r : Byte × Byte) (s : State) : State := (s.setReg x r.1).setReg VF r.2

/-- The flag of V[X] into VF, then V[X] replaced by `f` of what it then holds (41_alu R116, R119, R121). -/
def writeFlagThenResult (x : Reg) (flag f : Byte → Byte) (s : State) : State :=
  let t := s.setReg VF (flag (s.reg x))
  t.setReg x (f (t.reg x))

/-- 6XNN (R110): V[X] <- NN. -/
def execLdi (x : Reg) (nn : Byte) (s : State) : Result := .next (s.setReg x nn)

/-- 7XNN (R111): V[X] <- (V[X] + NN) mod 256, no flag. -/
def execAddi (x : Reg) (nn : Byte) (s : State) : Result := .next (s.setReg x (s.reg x + nn))

/-- 8XY0 (R112): V[X] <- V[Y]. -/
def execMov (x y : Reg) (s : State) : Result := .next (s.setReg x (s.reg y))

/-- 8XY1 (R113): V[X] <- V[X] OR V[Y]. -/
def execOr (x y : Reg) (s : State) : Result := .next (s.setReg x (s.reg x ||| s.reg y))

/-- 8XY2 (R114): V[X] <- V[X] AND V[Y]. -/
def execAnd (x y : Reg) (s : State) : Result := .next (s.setReg x (s.reg x &&& s.reg y))

/-- 8XY3 (R115): V[X] <- V[X] XOR V[Y]. -/
def execXor (x y : Reg) (s : State) : Result := .next (s.setReg x (s.reg x ^^^ s.reg y))

/-- 8XY4 (R117): V[X] + V[Y], VF the carry. -/
def execAdd (x y : Reg) (s : State) : Result :=
  .next (writeResultThenFlag x (addWithCarry (s.reg x) (s.reg y)) s)

/-- 8XY5 (R118): V[X] - V[Y], plus 255 on borrow, VF = 1 when there is no borrow. -/
def execSub (x y : Reg) (s : State) : Result :=
  .next (writeResultThenFlag x (subWithBorrow (s.reg x) (s.reg y)) s)

/-- 8XY6 (R119): VF the bit shifted out, V[X] shifted right by one; Y is ignored. -/
def execShr (x _y : Reg) (s : State) : Result := .next (writeFlagThenResult x bitOutRight shiftRight s)

/-- 8XY7 (R120): V[Y] - V[X] into V[X], as 8XY5 with the operands swapped. -/
def execSubn (x y : Reg) (s : State) : Result :=
  .next (writeResultThenFlag x (subWithBorrow (s.reg y) (s.reg x)) s)

/-- 8XYE (R121): VF the bit shifted out, V[X] shifted left by one; Y is ignored. -/
def execShl (x _y : Reg) (s : State) : Result := .next (writeFlagThenResult x bitOutLeft shiftLeft s)

/-- CXNN (R123): V[X] <- r AND NN, r one fresh draw. -/
def execRnd (x : Reg) (nn : Byte) (s : State) : Result :=
  .next ((drawRandom s).2.setReg x ((drawRandom s).1 &&& nn))

end Sys2Proof.Machine
end

