-- ==== Sys2Proof/Machine/Control.lean ====
section
/-! DEFINITION. The control-transfer instructions (40_cycle_and_control R86 to R94). In every meaning PC already holds the
address of the instruction plus 2 (10_state R15). -/

namespace Sys2Proof.Machine

/-- 0NNN (R86): no operation; NNN is ignored. -/
def execSys (_nnn : Addr) (s : State) : Result := .next s

/-- 00EE (R87): pop the return address into PC; StackUnderflow when SP = 0. -/
def execRet (s : State) : Result :=
  match pop s with
  | .ok (a, t) => .next (t.setPc a)
  | .error e => raise e

/-- 1NNN (R88): PC <- NNN. -/
def execJp (nnn : Addr) (s : State) : Result := .next (s.setPc (nnn.setWidth 13))

/-- 2NNN (R89): push PC, then PC <- NNN; StackOverflow when SP = 16, with nothing pushed. -/
def execCall (nnn : Addr) (s : State) : Result :=
  match push s.pc s with
  | .ok t => .next (t.setPc (nnn.setWidth 13))
  | .error e => raise e

/-- 3XNN (R90): skip if V[X] = NN. -/
def execSei (x : Reg) (nn : Byte) (s : State) : Result := .next (skipIf (s.reg x == nn) s)

/-- 4XNN (R91): skip if V[X] != NN. -/
def execSnei (x : Reg) (nn : Byte) (s : State) : Result := .next (skipIf (s.reg x != nn) s)

/-- 5XY0 (R92): skip if V[X] = V[Y]. -/
def execSer (x y : Reg) (s : State) : Result := .next (skipIf (s.reg x == s.reg y) s)

/-- 9XY0 (R94): skip if V[X] != V[Y]. -/
def execSner (x y : Reg) (s : State) : Result := .next (skipIf (s.reg x != s.reg y) s)

/-- BNNN (R93): PC <- (V[0] + op) AND 0x0FFF. -/
def execJpv0 (nnn : Addr) (s : State) : Result := .next (s.setPc (offsetTarget (s.reg 0) nnn))

end Sys2Proof.Machine
end

