-- ==== Sys2Proof/Machine/Index.lean ====
section
/-! DEFINITION. The index register and the memory transfers (42_index_and_memory R130 to R137). -/

namespace Sys2Proof.Machine

/-- ANNN (R130): I <- NNN. -/
def execLda (nnn : Addr) (s : State) : Result := .next (s.setIndex nnn)

/-- FX1E (R131): I <- I + V[X], masked to 12 bits past 0xFFF; then VF the overflow flag. -/
def execAdda (x : Reg) (s : State) : Result :=
  .next ((s.setIndex (indexAdd s.i (s.reg x)).1).setReg VF (indexAdd s.i (s.reg x)).2)

/-- FX29 (R132): I <- V[X] * 5; InvalidFontIndex when V[X] > 0xF. -/
def execFnt (x : Reg) (s : State) : Result :=
  if (s.reg x).toNat > 0xF then raise (.invalidFontIndex (s.reg x))
  else .next (s.setIndex (BitVec.ofNat 12 ((s.reg x).toNat * Config.fontStride)))

/-- FX33 (R133): the decimal digits of V[X] at I, I + 1, I + 2, only those that exist. -/
def execBcd (x : Reg) (s : State) : Result := storeCells (bcdCells s.params.bcdZero s.i (s.reg x)) s

/-- FX55 (R134): V[0] to V[X] to memory from I; I is unchanged (R137). -/
def execStm (x : Reg) (s : State) : Result := storeCells (registerCells s x) s

/-- FX65 (R135): V[0] to V[X] from memory at I; I is unchanged (R137). -/
def execLdm (x : Reg) (s : State) : Result :=
  checkedRead (effectiveAddresses s.i (x.val + 1)) (.next (loadRegisters s x))

end Sys2Proof.Machine
end

