-- ==== Sys2Proof/Machine/KeysTimers.lean ====
section
/-! DEFINITION. The key and timer instructions (44_keypad_and_timers R160 to R166). -/

namespace Sys2Proof.Machine

/-- EX9E (R160): skip if the latch equals V[X]. -/
def execSkp (x : Reg) (s : State) : Result := .next (skipIf (latchEquals s.key (s.reg x)) s)

/-- EXA1 (R161): skip if the latch differs from V[X]. -/
def execSknp (x : Reg) (s : State) : Result := .next (skipIf (!latchEquals s.key (s.reg x)) s)

/-- FX0A (R163): WAIT <- 1; X is ignored and no register is written. -/
def execWkey (_x : Reg) (s : State) : Result := .next (s.setWait true)

/-- FX07 (R164): V[X] <- DT mod 256. -/
def execGdt (x : Reg) (s : State) : Result := .next (s.setReg x (timerByte s.dt))

/-- FX15 (R165): DT <- V[X]. -/
def execSdt (x : Reg) (s : State) : Result := .next (s.setDt ((s.reg x).toNat : Int))

/-- FX18 (R166): ST <- V[X]. -/
def execSst (x : Reg) (s : State) : Result := .next (s.setSt ((s.reg x).toNat : Int))

end Sys2Proof.Machine
end

