-- ==== Sys2Proof/Machine/Screen.lean ====
section
/-! DEFINITION. The display instructions (43_display R150 to R153). Neither writes VF (43_display R152). -/

namespace Sys2Proof.Machine

/-- 00E0 (R150): every pixel 0. -/
def execCls (s : State) : Result := .next (s.setDisplay Display.clear)

/-- The rows of the sprite DXYN draws: the N bytes from I (R151). -/
def spriteRows (s : State) (n : Nat) : List Byte := (effectiveAddresses s.i n).map s.byteAt

/-- DXYN (R151): XOR the N rows at I into the display at (V[X], V[Y]); no flag. -/
def execDrw (x y : Reg) (n : Fin 16) (s : State) : Result :=
  checkedRead (effectiveAddresses s.i n.val)
    (.next (s.setDisplay
      (Display.xorRows s.params.drawEdge (s.reg x).toNat (s.reg y).toNat (spriteRows s n.val) s.fb)))

end Sys2Proof.Machine
end

