-- ==== Sys2Proof/Machine/Events.lean ====
section
/-! DEFINITION. The five events of the host (60_exceptions R200 to R206) and the cycle (40_cycle_and_control R80 to R84).
An event takes the whole state to a whole state and answers an outcome; a completed cycle also shows the display
(60_exceptions R198). -/

namespace Sys2Proof.Machine

/-- What an event answers besides the state: `ok`, or one error of 60_exceptions R181 (60_exceptions R180); or, for a
call outside the host's contract, that it has no meaning (60_exceptions R203, R204). -/
inductive EventOutcome where
  | ok
  | error (e : Fault)
  | refused (r : Refusal)
  deriving DecidableEq, Repr

/-- An event's new state, its outcome, and the display strobe DISP where there is one (60_exceptions R180, R198). -/
structure EventResult where
  state : State
  outcome : EventOutcome
  disp : Option Display
  deriving DecidableEq, Repr

/-- An event other than a cycle: it succeeds and gives no strobe. -/
def eventDone (s : State) : EventResult := ⟨s, .ok, none⟩

/-- Step 4: a cycle that raised nothing gives the strobe with the display as it is (40_cycle_and_control R84). -/
def cycleDone (s : State) : EventResult := ⟨s, .ok, some s.fb⟩

/-- An aborted cycle, or a refused Load: the error, the state it leaves, no strobe (40_cycle_and_control R84,
60_exceptions R186). -/
def eventAborted (e : Fault) (s : State) : EventResult := ⟨s, .error e, none⟩

/-- A call outside the host's contract: no meaning, nothing changed (60_exceptions R203, R204; notes/assumptions/11.md). -/
def eventRefused (r : Refusal) (s : State) : EventResult := ⟨s, .refused r, none⟩

/-- `Dispatch(op)`: the one instruction the word selects, or ReservedOpcode (40_cycle_and_control R83, 30_encoding R67). -/
def dispatchWord (op : OpWord) (s : State) : Result :=
  match decode op with
  | .ok i => exec i s
  | .error _ => raise (.reservedOpcode op)

/-- Steps 1 and 2 of the cycle: the timers, then the wake-up test (40_cycle_and_control R80). -/
def beginCycle (s : State) : State := wakeTest (decrementTimers s)

/-- Step 3 of the cycle when nothing is awaited, and its end: fetch and dispatch. After a refused fetch the state is as
before it; after a dispatch error it is the fetched one (60_exceptions R186). -/
def fetchAndDispatch (s : State) : EventResult :=
  match fetch s with
  | .error e => eventAborted e s
  | .ok (op, t) =>
    match dispatchWord op t with
    | .next u => cycleDone u
    | .fault e => eventAborted e t
    | .refused r => eventRefused r t

/-- Tick: one cycle (40_cycle_and_control R80, 60_exceptions R206). -/
def tick (s : State) : EventResult :=
  if (beginCycle s).wait then cycleDone (beginCycle s) else fetchAndDispatch (beginCycle s)

/-- Reset: the state of 10_state R30 whatever the state before (60_exceptions R201). The parameters and the position in
the random input are no state of the core (00_scope R9, 10_state R33) and stay. -/
def resetEvent (s : State) : EventResult :=
  eventDone { State.reset with params := s.params, rndIndex := s.rndIndex }

/-- The cells a program occupies: word `k` big-endian at `0x200 + 2k` (20_memory R46, 60_exceptions R202). -/
def programCells (words : List Nat) : List Host.Cell :=
  (words.mapIdx (fun k w =>
    [(Config.origin + 2 * k, highByte (BitVec.ofNat 16 w)),
     (Config.origin + 2 * k + 1, lowByte (BitVec.ofNat 16 w))])).flatten

/-- Load: the words from 0x200 up and PC <- 0x200, no other state altered; a program too long is refused before any
write (60_exceptions R202, R203). -/
def loadEvent (words : List Nat) (s : State) : EventResult :=
  match words.find? (fun w => decide (w ≥ 0x10000)) with
  | some w => eventRefused (.loadWordOutOfContract w) s
  | none =>
    if Config.origin + 2 * words.length > Config.memSize then
      eventAborted (.memWriteOutOfRange Config.memSize) s
    else eventDone ((s.putCells (programCells words)).setPc (BitVec.ofNat 13 Config.origin))

/-- Press: KEY <- k (60_exceptions R204). -/
def pressEvent (k : Nat) (s : State) : EventResult :=
  if h : k < 16 then eventDone (s.setKey (some ⟨k, h⟩))
  else eventRefused (.pressCodeOutOfContract k) s

/-- Release: KEY <- none (60_exceptions R205). -/
def releaseEvent (s : State) : EventResult := eventDone (s.setKey none)

/-- The interface of the core (60_exceptions R200). -/
inductive Event where
  | reset
  | load (words : List Nat)
  | press (code : Nat)
  | release
  | tick
  deriving DecidableEq, Repr

/-- One event of the host (60_exceptions R200). -/
def hostEvent (e : Event) (s : State) : EventResult :=
  match e with
  | .reset => resetEvent s
  | .load words => loadEvent words s
  | .press k => pressEvent k s
  | .release => releaseEvent s
  | .tick => tick s

/-! ### What the host sees of an error and of the display (60_exceptions R181, R208) -/

/-- The `code` column of 60_exceptions R181. -/
def Fault.code : Fault → Nat
  | .stackOverflow => 1
  | .stackUnderflow => 2
  | .memWriteOutOfRange _ => 3
  | .invalidFontIndex _ => 4
  | .fetchOutOfRange _ => 5
  | .memReadOutOfRange _ => 6
  | .reservedOpcode _ => 7

/-- The `info recorded` column of 60_exceptions R181. -/
def Fault.info : Fault → Option Nat
  | .stackOverflow => none
  | .stackUnderflow => none
  | .memWriteOutOfRange a => some a
  | .invalidFontIndex b => some b.toNat
  | .fetchOutOfRange p => some p.toNat
  | .memReadOutOfRange a => some a
  | .reservedOpcode op => some op.toNat

/-- `fb[2047:0]`, bit `64*y + x` being FB[y][x] (60_exceptions R208, informative). -/
def Display.signal (fb : Display) : BitVec 2048 :=
  BitVec.ofNat 2048 (fb.toList.foldr (fun row acc => acc * 2 ^ 64 + row.toNat) 0)

end Sys2Proof.Machine
end

