-- ==== Sys2Proof/Machine/Step.lean ====
section
/-! DEFINITION. One step of the machine: one Tick (60_exceptions R206), its error held as a fault (60_exceptions R188). -/

namespace Sys2Proof.Machine

/-- One Tick. An error outcome is a fault (60_exceptions R188; notes/assumptions/1.md); the state it would leave is that
of `tick`. -/
def step (s : State) : Host.Outcome State Fault Refusal :=
  match (tick s).outcome with
  | .ok => .next (tick s).state
  | .error e => .fault e
  | .refused r => .refused r

/-- The state with the instruction whose low bits are `w` where the next step fetches (notes/assumptions/9.md). -/
def State.withFetchWord (s : State) (nbits w : Nat) : State := placeInstruction s (tableBytes nbits w)

end Sys2Proof.Machine
end

