-- ==== Sys2Proof/Safety.lean ====
section
/-! DEFINITION. The terms that claims use: the pieces of the state and what it means to leave them alone, which pieces and
which registers an instruction writes, the invariant of 10_state R31, the mask of reserved words, and safe runs. -/

namespace Sys2Proof.Machine

/-! ### Frames -/

/-- The pieces of the state (10_state R10), the return stack being STACK with SP, and the model's own two. -/
inductive Part where
  | mem | regs | index | pc | stack | dt | st | display | key | wait | params | rnd
  deriving DecidableEq, Repr

/-- Two states agree on a piece. Memory and the registers are compared through the reads of one byte and of one
register. -/
def Agree (s t : State) : Part → Prop
  | .mem => ∀ a, t.byteAt a = s.byteAt a
  | .regs => ∀ r, t.reg r = s.reg r
  | .index => t.i = s.i
  | .pc => t.pc = s.pc
  | .stack => t.stack = s.stack ∧ t.sp = s.sp
  | .dt => t.dt = s.dt
  | .st => t.st = s.st
  | .display => t.fb = s.fb
  | .key => t.key = s.key
  | .wait => t.wait = s.wait
  | .params => t.params = s.params
  | .rnd => t.rndIndex = s.rndIndex

/-- Every piece but the named ones is unchanged. -/
def Frame (changed : List Part) (s t : State) : Prop := ∀ p, p ∉ changed → Agree s t p

/-- Every register but the named ones is unchanged. -/
def RegsFrame (changed : List Reg) (s t : State) : Prop := ∀ r, r ∉ changed → t.reg r = s.reg r

/-- Every byte but those at the named addresses is unchanged. -/
def BytesFrame (changed : List Nat) (s t : State) : Prop := ∀ a, a ∉ changed → t.byteAt a = s.byteAt a

/-- The pieces an instruction's dispatch may write (files 40 to 44, the pseudocode of each rule). -/
def writesParts : Instr → List Part
  | .sys _ => []
  | .jp _ | .jpv0 _ | .sei _ _ | .snei _ _ | .ser _ _ | .sner _ _ | .skp _ | .sknp _ => [.pc]
  | .ret | .call _ => [.pc, .stack]
  | .ldi _ _ | .addi _ _ | .mov _ _ | .or _ _ | .and _ _ | .xor _ _ | .add _ _ | .sub _ _ | .shr _ _ | .subn _ _
  | .shl _ _ | .gdt _ | .ldm _ => [.regs]
  | .rnd _ _ => [.regs, .rnd]
  | .lda _ | .fnt _ => [.index]
  | .adda _ => [.index, .regs]
  | .bcd _ | .stm _ => [.mem]
  | .cls | .drw _ _ _ => [.display]
  | .wkey _ => [.wait]
  | .sdt _ => [.dt]
  | .sst _ => [.st]

/-- The registers an instruction may write: its destination, and VF for the six instructions of 10_state R13. -/
def writesRegs : Instr → List Reg
  | .ldi x _ | .addi x _ | .mov x _ | .or x _ | .and x _ | .xor x _ | .rnd x _ | .gdt x => [x]
  | .add x _ | .sub x _ | .shr x _ | .subn x _ | .shl x _ => [x, VF]
  | .adda _ => [VF]
  | .ldm x => (List.finRange 16).filter (fun r => decide (r.val ≤ x.val))
  | .sys _ | .jp _ | .jpv0 _ | .sei _ _ | .snei _ _ | .ser _ _ | .sner _ _ | .skp _ | .sknp _ | .ret | .call _
  | .lda _ | .fnt _ | .bcd _ | .stm _ | .cls | .drw _ _ _ | .wkey _ | .sdt _ | .sst _ => []

/-- The addresses an instruction stores to in a state, by the functions its meaning uses: those of FX33 and FX55
(42_index_and_memory R133, R134). -/
def storesTo (s : State) : Instr → List Nat
  | .bcd x => (bcdCells s.params.bcdZero s.i (s.reg x)).map Prod.fst
  | .stm x => (registerCells s x).map Prod.fst
  | _ => []

/-- The six instructions that write VF as a side effect (10_state R13). -/
def writesFlag : Instr → Bool
  | .add _ _ | .sub _ _ | .shr _ _ | .subn _ _ | .shl _ _ | .adda _ => true
  | _ => false

/-- Which error an instruction can raise (60_exceptions R181, the column "raised by"). -/
def mayRaise : Instr → Fault → Prop
  | .call _, .stackOverflow => True
  | .ret, .stackUnderflow => True
  | .bcd _, .memWriteOutOfRange a => a ≥ Config.memSize
  | .stm _, .memWriteOutOfRange a => a = Config.memSize
  | .fnt _, .invalidFontIndex b => b.toNat > 15
  | .ldm _, .memReadOutOfRange a => a = Config.memSize
  | .drw _ _ _, .memReadOutOfRange a => a = Config.memSize
  | _, _ => False

/-! ### The invariant of 10_state R31 -/

/-- A timer is at most 255 and at least TIMER_FLOOR (10_state R31). -/
def timerInRange (floor : Option Nat) (t : Int) : Prop :=
  t ≤ 255 ∧ ∀ n, floor = some n → -(n : Int) ≤ t

/-- What every reachable state satisfies and the types do not already say (10_state R31): memory canonical, PC and every
stack slot at most 0x1002, both timers in range. -/
structure CoreInv (s : State) : Prop where
  mem : s.mem.wf s.params.font
  pc : s.pc.toNat ≤ 0x1002
  stack : ∀ k : Fin 16, s.stack[k].toNat ≤ 0x1002
  dt : timerInRange s.params.timerFloor s.dt
  st : timerInRange s.params.timerFloor s.st

/-! ### Sprites -/

/-- The sprite bit that DXYN puts on the pixel `(x, y)`: a sprite at `(x0, y0)` of `n` rows, row `r` being the byte
`rows r`. With wrap the pixel lies `(x - x0) mod 64` columns and `(y - y0) mod 32` rows into the sprite, with clip
`x - x0` columns and `y - y0` rows; a pixel outside the sprite's eight columns and `n` rows gets no bit
(43_display R151, R153). -/
def spriteBit (e : DrawEdge) (x0 y0 n : Nat) (rows : Nat → Byte) (x : Fin 64) (y : Fin 32) : Bool :=
  match e with
  | .wrap =>
    let c := (x.val + 64 - x0 % 64) % 64
    let r := (y.val + 32 - y0 % 32) % 32
    decide (c < 8) && decide (r < n) && (rows r).getLsbD (7 - c)
  | .clip =>
    decide (x0 ≤ x.val) && decide (x.val < x0 + 8) && decide (y0 ≤ y.val) && decide (y.val < y0 + n)
      && (rows (y.val - y0)).getLsbD (7 - (x.val - x0))

/-! ### Reserved words (30_encoding R68, its table) -/

/-- The word is one of the reserved words of 30_encoding R68. -/
def reservedWord (op : OpWord) : Bool :=
  let p := op.toNat / 0x1000
  let n := op.toNat % 0x10
  let nn := op.toNat % 0x100
  if p = 0x5 then n != 0
  else if p = 0x8 then decide (n ∈ [0x8, 0x9, 0xA, 0xB, 0xC, 0xD, 0xF])
  else if p = 0x9 then n != 0
  else if p = 0xE then decide (nn ∉ [0x9E, 0xA1])
  else if p = 0xF then decide (nn ∉ [0x07, 0x0A, 0x15, 0x18, 0x1E, 0x29, 0x33, 0x55, 0x65])
  else false

/-! ### Runs -/

/-- The core dispatches an instruction in the next cycle: it awaits nothing, or a key is latched
(40_cycle_and_control R81). -/
def Dispatching (s : State) : Prop := s.wait = false ∨ s.key.isSome = true

/-- The state in which the instruction of the next cycle is dispatched: the timers have fallen, no wait is left, PC is past
the instruction (40_cycle_and_control R80; 10_state R15). -/
def fetchedState (s : State) : State :=
  { s with
    dt := decrementTimer s.params.timerFloor s.dt
    st := decrementTimer s.params.timerFloor s.st
    wait := false
    pc := s.pc + 2 }

/-- The instruction word the next fetch reads (40_cycle_and_control R82). -/
def nextWord (s : State) : OpWord := wordOfBytes (s.byteAt s.pc.toNat) (s.byteAt (s.pc.toNat + 1))

/-- A sequence of host events, each with outcome `ok`, from one state to another: a run without an error
(60_exceptions R188, R200). -/
inductive SafeRun : State → List Event → State → Prop where
  | done (s : State) : SafeRun s [] s
  | event {s u : State} {e : Event} {es : List Event} (h : (hostEvent e s).outcome = .ok)
      (rest : SafeRun (hostEvent e s).state es u) : SafeRun s (e :: es) u

end Sys2Proof.Machine
end

