-- ==== Sys2Proof/Certificates/Slice0/Obligations.lean ====
section
/-! DEFINITION. The statements for the provers. Each docstring names the rules or sections of spec/ it rests on. A
statement that rests on a decision the spec marks as its own, or on a value the model chose, says so. "Completes" means that
`exec` answers a next state. -/

open Sys2Proof Sys2Proof.Machine

/-! ### Encoding -/

/-- 30_encoding sections 1 and 2: decoding the word of a well-formed instruction gives it back, every operand at every
value. -/
def Obligations.DecodeOfEncodeIsIdentity : Prop :=
  ∀ i : Instr, i.wf = true → decode (encode i) = .ok i

/-- 30_encoding sections 1 and 2: a word that decodes is the word of the one, well-formed, instruction it decodes to. -/
def Obligations.EncodeOfDecodeIsIdentity : Prop :=
  ∀ (op : OpWord) (i : Instr), decode op = .ok i → i.wf = true ∧ encode i = op

/-- 30_encoding section 2: a word decodes to an instruction of a row that its `op AND mask = match` selects, and any row
so selected is the row it decodes to, except that the two FIXED rows go before the 0NNN row. -/
def Obligations.DecodeFollowsOpcodeTable : Prop :=
  ∀ op : OpWord,
    (∀ i, decode op = .ok i → op &&& rowMask i = rowMatch i) ∧
    (∀ j, op &&& rowMask j = rowMatch j → ∃ i, decode op = .ok i ∧
      ((rowMatch i = rowMatch j ∧ rowMask i = rowMask j) ∨ (op = 0x00E0#16 ∧ i = .cls) ∨ (op = 0x00EE#16 ∧ i = .ret)))

/-- 30_encoding section 3: exactly the words of the table of reserved words are refused, each by its own name. That they
raise an error at all is the spec's own decision (D8). -/
def Obligations.ReservedWordsAreRefused : Prop :=
  ∀ op : OpWord, (decode op = .error (.reserved op) ↔ reservedWord op = true) ∧
    ∀ e, decode op = .error e → e = .reserved op

/-- Words written out from the spec's own examples (30_encoding section 4, and the examples of files 40 to 44). -/
def Obligations.ExampleWordsDecode : Prop :=
  decode 0x632A#16 = .ok (.ldi 3 0x2A) ∧ decode 0x8124#16 = .ok (.add 1 2) ∧ decode 0xD125#16 = .ok (.drw 1 2 5) ∧
  decode 0x1208#16 = .ok (.jp 0x208) ∧ decode 0xF00A#16 = .ok (.wkey 0) ∧ decode 0x00E0#16 = .ok .cls ∧
  decode 0xE39E#16 = .ok (.skp 3) ∧ decode 0xF255#16 = .ok (.stm 2)

/-! ### The cycle -/

/-- 40_cycle_and_control section 1: when the two bytes at PC decode to an instruction, a step is `exec` of it in the state
with the timers lowered, no wait left and PC two further on. -/
def Obligations.StepRunsDecodedInstruction : Prop :=
  ∀ (s : State) (i : Instr), Dispatching s → s.pc.toNat < 0xFFF → decode (nextWord s) = .ok i →
    step s = exec i { s with
      dt := decrementTimer s.params.timerFloor s.dt
      st := decrementTimer s.params.timerFloor s.st
      wait := false
      pc := s.pc + 2 }

/-- 40_cycle_and_control section 1, 10_state section 8: while a key is awaited and none is latched, a cycle completes,
lowers the timers and changes nothing else. -/
def Obligations.WaitingCycleOnlyLowersTimers : Prop :=
  ∀ s : State, s.wait = true → s.key = none →
    step s = .next { s with
      dt := decrementTimer s.params.timerFloor s.dt
      st := decrementTimer s.params.timerFloor s.st }

/-- 44_keypad_and_timers section 1: a core in a key wait stays in it for any number of cycles without a press, the timers
falling once a cycle and nothing else changing. -/
def Obligations.WaitLastsUntilPress : Prop :=
  ∀ (s : State) (k : Nat), s.wait = true → s.key = none →
    Host.Core.run Sys2Proof.core k s = .next { s with
      dt := (decrementTimer s.params.timerFloor)^[k] s.dt
      st := (decrementTimer s.params.timerFloor)^[k] s.st }

/-- 40_cycle_and_control section 1 (D6): a fetch from 0xFFF or above is refused with the PC as the error's information,
and the cycle leaves PC where it was. The exact condition is the spec's own decision. -/
def Obligations.FetchPastEndIsRefused : Prop :=
  ∀ s : State, Dispatching s → s.pc.toNat ≥ 0xFFF →
    step s = .fault (.fetchOutOfRange s.pc) ∧ (tick s).state.pc = s.pc

/-- 30_encoding section 3 (D8): dispatching a reserved word ends in ReservedOpcode with the word as its information. That
it does is the spec's own decision. -/
def Obligations.ReservedWordFaults : Prop :=
  ∀ s : State, Dispatching s → s.pc.toNat < 0xFFF → reservedWord (nextWord s) = true →
    step s = .fault (.reservedOpcode (nextWord s))

/-- 60_exceptions section 1 (D9, D11): the state an aborted cycle leaves is the one before it with the timers lowered and
no wait, PC unchanged after a refused fetch and two further on after a dispatch error; no strobe is given. The choice of
this state is the spec's own. -/
def Obligations.AbortedCycleChangesNothingElse : Prop :=
  ∀ (s : State) (e : Fault), (tick s).outcome = .error e →
    (tick s).disp = none ∧
    ((e = .fetchOutOfRange s.pc ∧ s.pc.toNat ≥ 0xFFF ∧ (tick s).state = { fetchedState s with pc := s.pc }) ∨
     (s.pc.toNat < 0xFFF ∧ (tick s).state = fetchedState s))

/-- 60_exceptions section 4, 40_cycle_and_control section 1: a cycle gives the strobe with the display as it then is
exactly when it was not aborted; Reset, Load, Press and Release give none. -/
def Obligations.StrobeShowsDisplayOfCompletedCycle : Prop :=
  ∀ s : State, ((tick s).outcome = .ok → (tick s).disp = some (tick s).state.fb) ∧
    ((tick s).outcome ≠ .ok → (tick s).disp = none) ∧
    ∀ e, e ≠ .tick → (hostEvent e s).disp = none

/-- 10_state section 6 (D4): in every cycle, completed, waiting or aborted, each timer falls by one before the dispatch,
down to the floor where there is one: only a cycle that dispatches the instruction that sets that timer leaves another
value, the one the instruction writes. The floor is a parameter of the spec's own (notes/assumptions/4.md). -/
def Obligations.TimersFallEveryCycle : Prop :=
  ∀ s : State,
    (¬ (Dispatching s ∧ s.pc.toNat < 0xFFF ∧ ∃ x, decode (nextWord s) = .ok (.sdt x)) →
      (tick s).state.dt = decrementTimer s.params.timerFloor s.dt) ∧
    (¬ (Dispatching s ∧ s.pc.toNat < 0xFFF ∧ ∃ x, decode (nextWord s) = .ok (.sst x)) →
      (tick s).state.st = decrementTimer s.params.timerFloor s.st) ∧
    (∀ x, Dispatching s → s.pc.toNat < 0xFFF → decode (nextWord s) = .ok (.sdt x) →
      (tick s).state.dt = (s.reg x).toNat) ∧
    (∀ x, Dispatching s → s.pc.toNat < 0xFFF → decode (nextWord s) = .ok (.sst x) →
      (tick s).state.st = (s.reg x).toNat) ∧
    (∀ t : Int, decrementTimer none t = t - 1) ∧
    (∀ (n : Nat) (t : Int), decrementTimer (some n) t = max (t - 1) (-(n : Int)))

/-! ### The invariant -/

/-- 10_state section 10 (R31 is the spec's own inference): every step keeps the invariant. -/
def Obligations.StepKeepsInvariant : Prop :=
  ∀ s t : State, CoreInv s → step s = .next t → CoreInv t

/-- 10_state section 10 (R31 is the spec's own inference): every host event keeps the invariant, whatever its outcome. -/
def Obligations.HostEventsKeepInvariant : Prop :=
  ∀ (e : Event) (s : State), CoreInv s → CoreInv (hostEvent e s).state

/-- 10_state section 10 (R31 is the spec's own inference): the invariant holds after Reset. -/
def Obligations.ResetMeetsInvariant : Prop := CoreInv State.reset

/-- 10_state section 10 (R31 is the spec's own inference): the invariant holds of every state a run of host events without
an error reaches from one that has it. -/
def Obligations.SafeRunsKeepInvariant : Prop :=
  ∀ (es : List Event) (s t : State), CoreInv s → SafeRun s es t → CoreInv t

/-! ### The host's events -/

/-- 10_state section 9 and its table of reset values, 60_exceptions section 5 (D17, D18): Reset succeeds from every state
and leaves FONT in 0x000 to 0x04F, whichever font the parameter is, 0 in all other memory and in every register, no key and
no wait; the power-on state `State.reset` is that state. That memory outside the font and WAIT are cleared is the spec's own
decision (D17). -/
def Obligations.ResetReinitialisesEverything : Prop :=
  ∀ s : State,
    let t := (hostEvent .reset s).state
    (hostEvent .reset s).outcome = .ok ∧
    (∀ k : Fin 80, t.byteAt k.val = s.params.font[k.val]) ∧ (∀ a, 80 ≤ a → t.byteAt a = 0) ∧
    (∀ r, t.reg r = 0) ∧ t.i = 0 ∧ t.pc = 0 ∧ (∀ k : Fin 16, t.stack[k] = 0) ∧ t.sp = 0 ∧ t.dt = 0 ∧ t.st = 0 ∧
    (∀ x y, Display.pixel t.fb x y = false) ∧ t.key = none ∧ t.wait = false ∧
    t = { State.reset with params := s.params, rndIndex := s.rndIndex }

/-- 60_exceptions R202, 20_memory R46: Load puts word k big-endian at 0x200 + 2k, sets PC to 0x200 and alters nothing else;
a program of more than 1792 words raises MemWriteOutOfRange(0x1000). -/
def Obligations.LoadPlacesWordsBigEndian : Prop :=
  ∀ (words : List Nat) (s : State), (∀ w ∈ words, w < 0x10000) →
    let r := hostEvent (.load words) s
    (0x200 + 2 * words.length ≤ 0x1000 →
      r.outcome = .ok ∧ r.state.pc = 0x200 ∧
      (∀ (k : Nat) (h : k < words.length),
        (r.state.byteAt (0x200 + 2 * k)).toNat = words[k] / 256 ∧
        (r.state.byteAt (0x200 + 2 * k + 1)).toNat = words[k] % 256) ∧
      (∀ a, a < 0x200 ∨ 0x200 + 2 * words.length ≤ a → r.state.byteAt a = s.byteAt a) ∧
      Frame [.mem, .pc] s r.state) ∧
    (0x200 + 2 * words.length > 0x1000 → r.outcome = .error (.memWriteOutOfRange 0x1000))

/-- 60_exceptions section 5 (D9, D22): a Load that is refused for its length changes nothing. That the check stands before
every write is the spec's own decision. -/
def Obligations.LoadTooLongChangesNothing : Prop :=
  ∀ (words : List Nat) (s : State), 0x200 + 2 * words.length > 0x1000 → (hostEvent (.load words) s).state = s

/-- 60_exceptions section 5 (D22): a Load word above 0xFFFF and a Press code above 15 are outside the host's contract: the
call is refused by name and changes nothing. That the model refuses them is the spec's own decision. -/
def Obligations.CallsOutsideContractAreRefused : Prop :=
  ∀ s : State,
    (∀ words, (∃ w ∈ words, w ≥ 0x10000) →
      (∃ w ∈ words, w ≥ 0x10000 ∧ (hostEvent (.load words) s).outcome = .refused (.loadWordOutOfContract w)) ∧
      (hostEvent (.load words) s).state = s) ∧
    (∀ k, k ≥ 16 → (hostEvent (.press k) s).outcome = .refused (.pressCodeOutOfContract k) ∧
      (hostEvent (.press k) s).state = s)

/-- 60_exceptions R205: Release clears the latch to none, always succeeds and changes nothing else. -/
def Obligations.ReleaseClearsLatch : Prop :=
  ∀ s : State, (hostEvent .release s).outcome = .ok ∧ (hostEvent .release s).state = { s with key := none } ∧
    (s.key = none → (hostEvent .release s).state = s)

/-- 10_state section 8, 60_exceptions section 5 (D16): the latch is written only by Press, Release (none) and Reset (none).
Press of a code 0 to 15 succeeds, writes the code and changes nothing else, WAIT included. That Press does not itself end a
wait is the spec's own decision (notes/assumptions/15.md). -/
def Obligations.OnlyHostWritesLatch : Prop :=
  ∀ (e : Event) (s : State),
    ((hostEvent e s).state.key ≠ s.key → e = .reset ∨ e = .release ∨ ∃ k, e = .press k) ∧
    (∀ (k : Nat) (h : k < 16), (hostEvent (.press k) s).outcome = .ok ∧
      (hostEvent (.press k) s).state = { s with key := some ⟨k, h⟩ }) ∧
    (hostEvent .release s).state.key = none ∧ (hostEvent .reset s).state.key = none

/-! ### Control transfer -/

/-- 40_cycle_and_control section 2, 0NNN, and section 1 (D16): 0NNN completes and changes nothing; every word with primary
nibble 0 but 0x00E0 and 0x00EE is this instruction; a cycle that dispatches one leaves the timers lowered, no wait and PC
two further on. That a latched key ends a wait in that cycle is the spec's own decision (notes/assumptions/15.md). -/
def Obligations.SysIsNoOperation : Prop :=
  (∀ (nnn : Addr) (s : State), exec (.sys nnn) s = .next s) ∧
  (∀ op : OpWord, op.toNat < 0x1000 → op ≠ 0x00E0#16 → op ≠ 0x00EE#16 → ∃ nnn, decode op = .ok (.sys nnn)) ∧
  (∀ s : State, Dispatching s → s.pc.toNat < 0xFFF → (nextWord s).toNat < 0x1000 →
    nextWord s ≠ 0x00E0#16 → nextWord s ≠ 0x00EE#16 → step s = .next (fetchedState s))

/-- 40_cycle_and_control R87: with an address saved, 00EE completes, counts one less and goes to the slot it then names,
which keeps its content; with none it raises StackUnderflow. -/
def Obligations.ReturnPopsAddress : Prop :=
  ∀ s : State,
    (∀ h : s.sp.val ≠ 0, ∃ t, exec .ret s = .next t ∧ t.sp.val = s.sp.val - 1 ∧
      t.pc = s.stack[s.sp.val - 1]'(by omega) ∧ t.stack = s.stack ∧ Frame [.pc, .stack] s t) ∧
    (s.sp.val = 0 → exec .ret s = .fault .stackUnderflow)

/-- 40_cycle_and_control section 2, 1NNN (D6 for the last clause): 1NNN completes with PC = NNN and nothing else changed; a
target of 0xFFF makes the next fetch raise FetchOutOfRange. That 0xFFF itself is refused is the spec's own decision. -/
def Obligations.JumpSetsPc : Prop :=
  ∀ (nnn : Addr) (s : State), ∃ t, exec (.jp nnn) s = .next t ∧ t.pc.toNat = nnn.toNat ∧ Frame [.pc] s t ∧
    (nnn.toNat = 0xFFF → Dispatching t → step t = .fault (.fetchOutOfRange 0xFFF))

/-- 40_cycle_and_control R89: with room, 2NNN completes, saves PC in the slot SP, counts one more and goes to NNN; with 16
addresses saved it raises StackOverflow. -/
def Obligations.CallPushesPc : Prop :=
  ∀ (nnn : Addr) (s : State),
    (∀ h : s.sp.val < 16, ∃ t, exec (.call nnn) s = .next t ∧ t.pc.toNat = nnn.toNat ∧ t.sp.val = s.sp.val + 1 ∧
      t.stack[s.sp.val] = s.pc ∧ (∀ k : Fin 16, k.val ≠ s.sp.val → t.stack[k] = s.stack[k]) ∧
      Frame [.pc, .stack] s t) ∧
    (s.sp.val = 16 → exec (.call nnn) s = .fault .stackOverflow)

/-- 40_cycle_and_control section 2 (R87 with R89; the source's property of chained calls): a return straight after a call
goes back to the instruction after the call, with the stack as deep as before and every saved address kept. -/
def Obligations.ReturnAfterCallComesBack : Prop :=
  ∀ (nnn : Addr) (s : State), s.sp.val < 16 → ∃ t u, exec (.call nnn) s = .next t ∧ exec .ret t = .next u ∧
    u.pc = s.pc ∧ u.sp = s.sp ∧ (∀ k : Fin 16, k.val < s.sp.val → u.stack[k] = s.stack[k]) ∧
    Frame [.pc, .stack] s u

/-- 40_cycle_and_control R90, R91: 3XNN and 4XNN complete, adding 2 to PC when V[X] = NN, respectively V[X] ≠ NN, and change
nothing else. -/
def Obligations.ImmediateSkips : Prop :=
  ∀ (x : Reg) (nn : Byte) (s : State),
    (∃ t, exec (.sei x nn) s = .next t ∧ t.pc = (if s.reg x = nn then s.pc + 2 else s.pc) ∧ Frame [.pc] s t) ∧
    (∃ t, exec (.snei x nn) s = .next t ∧ t.pc = (if s.reg x ≠ nn then s.pc + 2 else s.pc) ∧ Frame [.pc] s t)

/-- 40_cycle_and_control R92, R94: 5XY0 and 9XY0 complete, adding 2 to PC when V[X] = V[Y], respectively V[X] ≠ V[Y], and
change nothing else. -/
def Obligations.RegisterSkips : Prop :=
  ∀ (x y : Reg) (s : State),
    (∃ t, exec (.ser x y) s = .next t ∧ t.pc = (if s.reg x = s.reg y then s.pc + 2 else s.pc) ∧ Frame [.pc] s t) ∧
    (∃ t, exec (.sner x y) s = .next t ∧ t.pc = (if s.reg x ≠ s.reg y then s.pc + 2 else s.pc) ∧ Frame [.pc] s t)

/-- 40_cycle_and_control R93: BNNN completes with PC = (V[0] + op) AND 0x0FFF, `op` the whole word 0xBNNN, and changes
nothing else. -/
def Obligations.JumpWithOffsetMasksSum : Prop :=
  ∀ (nnn : Addr) (s : State), ∃ t, exec (.jpv0 nnn) s = .next t ∧
    t.pc.toNat = ((s.reg 0).toNat + (encode (.jpv0 nnn)).toNat) &&& 0x0FFF ∧ Frame [.pc] s t

/-- 40_cycle_and_control section 2, BNNN: the target is (V[0] + NNN) mod 4096. That it equals the masked sum with the whole
word is the spec's own inference. -/
def Obligations.JumpWithOffsetWrapsInMemory : Prop :=
  ∀ (nnn : Addr) (s t : State), exec (.jpv0 nnn) s = .next t → t.pc.toNat = ((s.reg 0).toNat + nnn.toNat) % 4096

/-! ### Loads, logic, arithmetic -/

/-- 41_alu R110, R111: 6XNN completes with V[X] = NN, 7XNN with V[X] = (V[X] + NN) mod 256 and no flag; no other register
and nothing else changes. -/
def Obligations.LoadAndAddImmediate : Prop :=
  ∀ (x : Reg) (nn : Byte) (s : State),
    (∃ t, exec (.ldi x nn) s = .next t ∧ t.reg x = nn ∧ RegsFrame [x] s t ∧ Frame [.regs] s t) ∧
    (∃ t, exec (.addi x nn) s = .next t ∧ (t.reg x).toNat = ((s.reg x).toNat + nn.toNat) % 256 ∧
      RegsFrame [x] s t ∧ Frame [.regs] s t)

/-- 41_alu R112, R113, R114, R115: the move and the three bitwise instructions complete with their result in V[X], write no
flag, and change no other register and nothing else. -/
def Obligations.MoveAndBitwiseLogic : Prop :=
  ∀ (x y : Reg) (s : State),
    (∃ t, exec (.mov x y) s = .next t ∧ t.reg x = s.reg y ∧ RegsFrame [x] s t ∧ Frame [.regs] s t) ∧
    (∃ t, exec (.or x y) s = .next t ∧ (∀ k, (t.reg x).getLsbD k = ((s.reg x).getLsbD k || (s.reg y).getLsbD k)) ∧
      RegsFrame [x] s t ∧ Frame [.regs] s t) ∧
    (∃ t, exec (.and x y) s = .next t ∧ (∀ k, (t.reg x).getLsbD k = ((s.reg x).getLsbD k && (s.reg y).getLsbD k)) ∧
      RegsFrame [x] s t ∧ Frame [.regs] s t) ∧
    (∃ t, exec (.xor x y) s = .next t ∧ (∀ k, (t.reg x).getLsbD k = ((s.reg x).getLsbD k ^^ (s.reg y).getLsbD k)) ∧
      RegsFrame [x] s t ∧ Frame [.regs] s t)

/-- 41_alu section 3, 8XY4 (D15 for X = F): completes with V[X] the sum modulo 256 and VF the carry, 0 or 1; nothing else
changes. That with X = F the carry stands and the sum is lost is the spec's own decision. -/
def Obligations.AddSetsCarry : Prop :=
  ∀ (x y : Reg) (s : State), ∃ t, exec (.add x y) s = .next t ∧
    (x ≠ VF → (t.reg x).toNat = ((s.reg x).toNat + (s.reg y).toNat) % 256) ∧
    t.reg VF = (if (s.reg x).toNat + (s.reg y).toNat ≥ 256 then 1 else 0) ∧
    RegsFrame [x, VF] s t ∧ Frame [.regs] s t

/-- 41_alu section 3, 8XY5 and 8XY7 (D15 for X = F): both complete with V[X] the difference, 255 (not 256) added on borrow,
and VF = 1 when there is no borrow, else 0; nothing else changes. That with X = F the flag stands and the difference is lost
is the spec's own decision. -/
def Obligations.SubtractWrapsBy255 : Prop :=
  ∀ (x y : Reg) (s : State),
    (∃ t, exec (.sub x y) s = .next t ∧
      (x ≠ VF → ((t.reg x).toNat : Int) =
        if (s.reg x).toNat < (s.reg y).toNat then ((s.reg x).toNat : Int) - (s.reg y).toNat + 255
        else ((s.reg x).toNat : Int) - (s.reg y).toNat) ∧
      t.reg VF = (if (s.reg x).toNat < (s.reg y).toNat then 0 else 1) ∧
      RegsFrame [x, VF] s t ∧ Frame [.regs] s t) ∧
    (∃ t, exec (.subn x y) s = .next t ∧
      (x ≠ VF → ((t.reg x).toNat : Int) =
        if (s.reg y).toNat < (s.reg x).toNat then ((s.reg y).toNat : Int) - (s.reg x).toNat + 255
        else ((s.reg y).toNat : Int) - (s.reg x).toNat) ∧
      t.reg VF = (if (s.reg y).toNat < (s.reg x).toNat then 0 else 1) ∧
      RegsFrame [x, VF] s t ∧ Frame [.regs] s t)

/-- 41_alu section 3 (D15 for X = F): 8XY6 and 8XYE complete with V[X] shifted by one and VF the bit shifted out; Y is
ignored; with X = F the flag is written first and then shifted, so VF ends as 0, respectively as twice its old bit 7. The
outcome for X = F is the spec's own decision. -/
def Obligations.ShiftsOfVx : Prop :=
  ∀ (x y : Reg) (s : State),
    (∃ t, exec (.shr x y) s = .next t ∧
      (x ≠ VF → (t.reg x).toNat = (s.reg x).toNat / 2 ∧ (t.reg VF).toNat = (s.reg x).toNat % 2) ∧
      (x = VF → t.reg VF = 0) ∧ RegsFrame [x, VF] s t ∧ Frame [.regs] s t) ∧
    (∃ t, exec (.shl x y) s = .next t ∧
      (x ≠ VF → (t.reg x).toNat = 2 * (s.reg x).toNat % 256 ∧ (t.reg VF).toNat = (s.reg x).toNat / 128) ∧
      (x = VF → (t.reg VF).toNat = 2 * ((s.reg x).toNat / 128)) ∧ RegsFrame [x, VF] s t ∧ Frame [.regs] s t)

/-- 41_alu section 5 (D20): CXNN completes; V[X] has no bit outside NN, being one fresh draw AND NN, and exactly one draw is
consumed. Nothing rests on the drawn value, which is free (notes/assumptions/3.md). -/
def Obligations.RandomByteUnderMask : Prop :=
  ∀ (x : Reg) (nn : Byte) (s : State), ∃ t, exec (.rnd x nn) s = .next t ∧
    t.reg x &&& ~~~nn = 0 ∧ t.reg x = Config.rnd s.rndIndex &&& nn ∧ t.rndIndex = s.rndIndex + 1 ∧
    RegsFrame [x] s t ∧ Frame [.regs, .rnd] s t

/-! ### Index and memory -/

/-- 42_index_and_memory R130: ANNN completes with I = NNN and nothing else changed. -/
def Obligations.LoadIndexImmediate : Prop :=
  ∀ (nnn : Addr) (s : State), ∃ t, exec (.lda nnn) s = .next t ∧ t.i = nnn ∧ Frame [.index] s t

/-- 42_index_and_memory, FX1E (D15 for X = F): completes with I the sum cut to 12 bits and VF = 1 when the sum exceeds
0xFFF, else 0; nothing else changes. That with X = F the old VF is the addend and the flag stands is the spec's own
decision. -/
def Obligations.AddToIndexSetsOverflow : Prop :=
  ∀ (x : Reg) (s : State), ∃ t, exec (.adda x) s = .next t ∧
    t.i.toNat = (s.i.toNat + (s.reg x).toNat) % 4096 ∧
    t.reg VF = (if s.i.toNat + (s.reg x).toNat > 0xFFF then 1 else 0) ∧
    RegsFrame [VF] s t ∧ Frame [.index, .regs] s t

/-- 42_index_and_memory R132: with V[X] at most 15, FX29 completes with I = 5 * V[X] and nothing else changed; else it
raises InvalidFontIndex with the whole byte V[X]. -/
def Obligations.FontIndexPointsAtSprite : Prop :=
  ∀ (x : Reg) (s : State),
    ((s.reg x).toNat ≤ 15 → ∃ t, exec (.fnt x) s = .next t ∧ t.i.toNat = 5 * (s.reg x).toNat ∧ Frame [.index] s t) ∧
    ((s.reg x).toNat > 15 → exec (.fnt x) s = .fault (.invalidFontIndex (s.reg x)))

/-- 42_index_and_memory, FX33 (D13, D14): when I + 2 is inside memory, FX33 completes and writes exactly the digits that
exist: ones at I + 2 (for 0 only with BCD_ZERO = one_digit), tens at I + 1 from 10 on, hundreds at I from 100 on; every
other byte and everything else is unchanged. The treatment of 0 is the spec's own decision and a parameter here. -/
def Obligations.BcdStoresExistingDigits : Prop :=
  ∀ (x : Reg) (s : State),
    let v := (s.reg x).toNat
    let one := v ≥ 1 ∨ s.params.bcdZero = .oneDigit
    (one → s.i.toNat + 2 ≤ 0xFFF) → ∃ t, exec (.bcd x) s = .next t ∧
      (one → (t.byteAt (s.i.toNat + 2)).toNat = v % 10) ∧
      (v ≥ 10 → (t.byteAt (s.i.toNat + 1)).toNat = v / 10 % 10) ∧
      (v ≥ 100 → (t.byteAt s.i.toNat).toNat = v / 100) ∧
      (∀ a, ¬ (a = s.i.toNat + 2 ∧ one) → ¬ (a = s.i.toNat + 1 ∧ v ≥ 10) → ¬ (a = s.i.toNat ∧ v ≥ 100) →
        t.byteAt a = s.byteAt a) ∧
      Frame [.mem] s t

/-- 42_index_and_memory, FX33 (D13, D14): when a digit's cell lies past the end, FX33 raises MemWriteOutOfRange with the
lowest such address, which is 0x1000 when tens are written and I + 2 when only ones are. Which cells are checked is the
spec's own decision. -/
def Obligations.BcdPastEndRaises : Prop :=
  ∀ (x : Reg) (s : State), ((s.reg x).toNat ≥ 1 ∨ s.params.bcdZero = .oneDigit) → s.i.toNat + 2 > 0xFFF →
    exec (.bcd x) s =
      .fault (.memWriteOutOfRange (if (s.reg x).toNat ≥ 10 then 0x1000 else s.i.toNat + 2))

/-- 42_index_and_memory R134: when I + X is inside memory, FX55 completes with V[k] at I + k for k = 0..X and every other
byte and everything else, I included, unchanged; else it raises MemWriteOutOfRange(0x1000). -/
def Obligations.StoreRegistersWritesBlock : Prop :=
  ∀ (x : Reg) (s : State),
    (s.i.toNat + x.val ≤ 0xFFF → ∃ t, exec (.stm x) s = .next t ∧
      (∀ r : Reg, r.val ≤ x.val → t.byteAt (s.i.toNat + r.val) = s.reg r) ∧
      (∀ a, a < s.i.toNat ∨ s.i.toNat + x.val < a → t.byteAt a = s.byteAt a) ∧ Frame [.mem] s t) ∧
    (s.i.toNat + x.val > 0xFFF → exec (.stm x) s = .fault (.memWriteOutOfRange 0x1000))

/-- 42_index_and_memory, FX65 (D7 for the error): when I + X is inside memory, FX65 completes with V[k] the byte at I + k for
k = 0..X and every other register and everything else, I included, unchanged; else it raises MemReadOutOfRange(0x1000). The
error on a read is the spec's own decision. -/
def Obligations.LoadRegistersReadsBlock : Prop :=
  ∀ (x : Reg) (s : State),
    (s.i.toNat + x.val ≤ 0xFFF → ∃ t, exec (.ldm x) s = .next t ∧
      (∀ r : Reg, r.val ≤ x.val → t.reg r = s.byteAt (s.i.toNat + r.val)) ∧
      (∀ r : Reg, x.val < r.val → t.reg r = s.reg r) ∧ Frame [.regs] s t) ∧
    (s.i.toNat + x.val > 0xFFF → exec (.ldm x) s = .fault (.memReadOutOfRange 0x1000))

/-- 42_index_and_memory (the source's round trip): FX55, then FX65 with the same I and X in any state that has kept I and
memory, restores V[0..X]. -/
def Obligations.StoreThenLoadRestoresRegisters : Prop :=
  ∀ (x : Reg) (s t u : State), exec (.stm x) s = .next t → u.i = t.i → (∀ a, u.byteAt a = t.byteAt a) →
    ∃ w, exec (.ldm x) u = .next w ∧ ∀ r : Reg, r.val ≤ x.val → w.reg r = s.reg r

/-- 20_memory section 4 (D25): a word that FX55 stores over the next instruction is the word the next fetch reads. -/
def Obligations.StoredWordIsFetchedNext : Prop :=
  ∀ (x : Reg) (s t : State) (k : Nat) (h : k + 1 ≤ x.val), exec (.stm x) s = .next t → t.pc.toNat = s.i.toNat + k →
    nextWord t = s.reg ⟨k, by omega⟩ ++ s.reg ⟨k + 1, by omega⟩

/-! ### The display -/

/-- 43_display R150: 00E0 completes with all 2048 pixels 0 and nothing else changed. -/
def Obligations.ClearScreen : Prop :=
  ∀ s : State, ∃ t, exec .cls s = .next t ∧ (∀ x y, Display.pixel t.fb x y = false) ∧ Frame [.display] s t

/-- 43_display (D7, D12): when the N rows at I are inside memory (always, for N = 0), DXYN completes, XORs the sprite's bit
into every pixel it covers, under either setting of DRAW_EDGE, and changes nothing else, VF included. What happens off the
grid is the spec's own decision and a parameter here. -/
def Obligations.DrawXorsSprite : Prop :=
  ∀ (x y : Reg) (n : Fin 16) (s : State), s.i.toNat + n.val ≤ 0x1000 → ∃ t, exec (.drw x y n) s = .next t ∧
    (∀ px py, Display.pixel t.fb px py = (Display.pixel s.fb px py ^^
      spriteBit s.params.drawEdge (s.reg x).toNat (s.reg y).toNat n.val (fun r => s.byteAt (s.i.toNat + r)) px py)) ∧
    Frame [.display] s t

/-- 43_display (D7): when a row of the sprite lies past the end of memory, DXYN raises MemReadOutOfRange(0x1000). The error
is the spec's own decision. -/
def Obligations.DrawPastEndRaises : Prop :=
  ∀ (x y : Reg) (n : Fin 16) (s : State), s.i.toNat + n.val > 0x1000 →
    exec (.drw x y n) s = .fault (.memReadOutOfRange 0x1000)

/-- 43_display section on the properties the source states: the same DXYN twice in succession restores the state before
both. -/
def Obligations.DrawTwiceRestoresScreen : Prop :=
  ∀ (x y : Reg) (n : Fin 16) (s t u : State), exec (.drw x y n) s = .next t → exec (.drw x y n) t = .next u → u = s

/-! ### Keys and timers -/

/-- 44_keypad_and_timers section 1, EX9E and EXA1 (D28): both complete, adding 2 to PC when a key is latched that equals the
whole byte V[X], respectively in all other cases, and change nothing else. That the whole byte is compared and that `none`
equals nothing is the spec's own decision. -/
def Obligations.KeySkips : Prop :=
  ∀ (x : Reg) (s : State),
    (∃ t, exec (.skp x) s = .next t ∧ Frame [.pc] s t ∧
      ((∃ k, s.key = some k ∧ k.val = (s.reg x).toNat) → t.pc = s.pc + 2) ∧
      (s.key = none ∨ (∃ k, s.key = some k ∧ k.val ≠ (s.reg x).toNat) → t.pc = s.pc)) ∧
    (∃ t, exec (.sknp x) s = .next t ∧ Frame [.pc] s t ∧
      ((∃ k, s.key = some k ∧ k.val = (s.reg x).toNat) → t.pc = s.pc) ∧
      (s.key = none ∨ (∃ k, s.key = some k ∧ k.val ≠ (s.reg x).toNat) → t.pc = s.pc + 2))

/-- 44_keypad_and_timers, FX0A (D16): FX0A completes with WAIT set and nothing else changed, no register written, whatever X
is; and the cycle that finds a key latched while waiting runs the next instruction with the wait ended. The level test is
the spec's own decision. -/
def Obligations.WaitForKeyEntersAndLeaves : Prop :=
  (∀ (x : Reg) (s : State), ∃ t, exec (.wkey x) s = .next t ∧ t.wait = true ∧ Frame [.wait] s t) ∧
  (∀ (s : State) (k : Key) (i : Instr), s.wait = true → s.key = some k → s.pc.toNat < 0xFFF →
    decode (nextWord s) = .ok i → step s = exec i (fetchedState s) ∧ (fetchedState s).wait = false)

/-- 44_keypad_and_timers, FX07 (D5 below zero): FX07 completes with V[X] = DT mod 256, DT itself when it is in 0..255, and
changes no other register and nothing else. The value for a negative DT is the spec's own decision. -/
def Obligations.ReadDelayTimer : Prop :=
  ∀ (x : Reg) (s : State), ∃ t, exec (.gdt x) s = .next t ∧
    ((t.reg x).toNat : Int) = s.dt % 256 ∧ (0 ≤ s.dt → s.dt ≤ 255 → ((t.reg x).toNat : Int) = s.dt) ∧
    RegsFrame [x] s t ∧ Frame [.regs] s t

/-- 44_keypad_and_timers section 2, FX15 and FX18 (D4): both complete with DT, respectively ST, equal to V[X] and nothing
else changed; the next cycle makes the timer V[X] - 1, or the floor where that is higher. The floor is a parameter of the
spec's own (notes/assumptions/4.md). -/
def Obligations.SetTimers : Prop :=
  ∀ (x : Reg) (s : State),
    (∃ t, exec (.sdt x) s = .next t ∧ t.dt = (s.reg x).toNat ∧ Frame [.dt] s t ∧
      (t.params.timerFloor = none → (beginCycle t).dt = (s.reg x).toNat - 1) ∧
      (∀ n, t.params.timerFloor = some n → (beginCycle t).dt = max ((s.reg x).toNat - 1 : Int) (-(n : Int)))) ∧
    (∃ t, exec (.sst x) s = .next t ∧ t.st = (s.reg x).toNat ∧ Frame [.st] s t ∧
      (t.params.timerFloor = none → (beginCycle t).st = (s.reg x).toNat - 1) ∧
      (∀ n, t.params.timerFloor = some n → (beginCycle t).st = max ((s.reg x).toNat - 1 : Int) (-(n : Int))))

/-! ### Whole-machine rules -/

/-- Files 40 to 44: what each instruction leaves unchanged when it completes: every piece of the state but those its rule
writes, every register but those it writes, every byte but those at the addresses it stores to. -/
def Obligations.EveryInstructionKeepsItsFrame : Prop :=
  ∀ (i : Instr) (s t : State), exec i s = .next t →
    Frame (writesParts i) s t ∧ RegsFrame (writesRegs i) s t ∧ BytesFrame (storesTo s i) s t

/-- 10_state section 2 (D15 for X = F): of all instructions exactly six write VF as a side effect, each on every execution:
what they leave in VF is 0 or 1 (but for a shift of VF itself) and does not depend on what VF held before, unless VF is an
operand; an instruction that is none of the six and does not name VF as a destination leaves it alone. -/
def Obligations.SixInstructionsWriteFlag : Prop :=
  ∀ (i : Instr) (s t : State), exec i s = .next t →
    (writesFlag i = false → VF ∉ writesRegs i → t.reg VF = s.reg VF) ∧
    (writesFlag i = true → (∀ y, i ≠ .shr VF y ∧ i ≠ .shl VF y) → t.reg VF = 0 ∨ t.reg VF = 1) ∧
    (writesFlag i = true →
      (∀ x y, (i = .add x y ∨ i = .sub x y ∨ i = .subn x y) → x ≠ VF ∧ y ≠ VF) →
      (∀ x y, (i = .shr x y ∨ i = .shl x y ∨ i = .adda x) → x ≠ VF) →
      ∀ b u, exec i (s.setReg VF b) = .next u → u.reg VF = t.reg VF)

/-- 60_exceptions section 1 (D6, D7, D8): the only errors dispatch can raise are those of the table of errors, each from its
own instructions. Three of the seven are the spec's own additions. -/
def Obligations.ErrorsOnlyWhereListed : Prop :=
  ∀ (i : Instr) (s : State) (e : Fault), exec i s = .fault e → mayRaise i e

/-- 60_exceptions section 1: no instruction and no step is refused: each ends in a next state or in one of the seven
errors. -/
def Obligations.NothingIsRefused : Prop :=
  (∀ (i : Instr) (s : State) (r : Refusal), exec i s ≠ .refused r) ∧ ∀ (s : State) (r : Refusal), step s ≠ .refused r

/-- 10_state sections 6, 7, 8 and 11: no instruction reads the sound timer, the display or the awaiting-input flag: run in
two states that differ in these alone, an instruction ends alike, and the two states after it agree on everything else. -/
def Obligations.ProgramCannotSeeSoundScreenOrWait : Prop :=
  ∀ (i : Instr) (s : State) (z : Int) (f : Display) (w : Bool),
    let s' := ((s.setSt z).setDisplay f).setWait w
    (∀ t, exec i s = .next t → ∃ t', exec i s' = .next t' ∧ Frame [.st, .display, .wait] t t') ∧
    (∀ e, exec i s = .fault e → exec i s' = .fault e)
end

