-- ==== Sys2Proof/Laws/Flags.lean ====
section
/-! SUPPORT. What each flag computation and operand form gives, as numbers (41_alu R122). -/

namespace Sys2Proof.Machine

theorem addWithCarry_eq (a b : Byte) : addWithCarry a b =
    if a.toNat + b.toNat ≥ 256 then (BitVec.ofNat 8 (a.toNat + b.toNat - 256), 1)
    else (BitVec.ofNat 8 (a.toNat + b.toNat), 0) := rfl

theorem addWithCarry_fst (a b : Byte) : (addWithCarry a b).1.toNat = (a.toNat + b.toNat) % 256 := by
  have ha := a.isLt; have hb := b.isLt
  rw [addWithCarry_eq]
  by_cases h : a.toNat + b.toNat ≥ 256
  · rw [if_pos h, BitVec.toNat_ofNat]; omega
  · rw [if_neg h, BitVec.toNat_ofNat]

theorem addWithCarry_snd (a b : Byte) : (addWithCarry a b).2 = if a.toNat + b.toNat ≥ 256 then 1 else 0 := by
  rw [addWithCarry_eq]
  by_cases h : a.toNat + b.toNat ≥ 256
  · rw [if_pos h, if_pos h]
  · rw [if_neg h, if_neg h]

theorem subWithBorrow_fst (a b : Byte) :
    (subWithBorrow a b).1.toNat = if a.toNat ≥ b.toNat then a.toNat - b.toNat else a.toNat + 255 - b.toNat := by
  have ha := a.isLt; have hb := b.isLt
  unfold subWithBorrow
  split
  · rename_i h
    rw [if_neg (by omega), BitVec.toNat_ofInt]
    omega
  · rename_i h
    rw [if_pos (by omega), BitVec.toNat_ofInt]
    omega

theorem subWithBorrow_snd (a b : Byte) : (subWithBorrow a b).2 = if a.toNat ≥ b.toNat then 1 else 0 := by
  unfold subWithBorrow
  split
  · rw [if_neg (by omega)]
  · rw [if_pos (by omega)]

theorem bitOutRight_toNat (a : Byte) : (bitOutRight a).toNat = a.toNat % 2 := by
  revert a; decide +kernel

theorem shiftRight_toNat (a : Byte) : (shiftRight a).toNat = a.toNat / 2 := by
  revert a; decide +kernel

theorem bitOutLeft_toNat (a : Byte) : (bitOutLeft a).toNat = a.toNat / 128 := by
  revert a; decide +kernel

theorem shiftLeft_toNat (a : Byte) : (shiftLeft a).toNat = 2 * a.toNat % 256 := by
  revert a; decide +kernel

theorem mask12 (n : Nat) : n &&& 0xFFF = n % 4096 := Nat.and_two_pow_sub_one_eq_mod n 12

theorem indexAdd_eq (i : Addr) (a : Byte) : indexAdd i a =
    if i.toNat + a.toNat > 0xFFF then (BitVec.ofNat 12 ((i.toNat + a.toNat) &&& 0xFFF), 1)
    else (BitVec.ofNat 12 (i.toNat + a.toNat), 0) := rfl

theorem indexAdd_fst (i : Addr) (a : Byte) : (indexAdd i a).1.toNat = (i.toNat + a.toNat) % 4096 := by
  rw [indexAdd_eq]
  by_cases h : i.toNat + a.toNat > 0xFFF
  · rw [if_pos h, mask12, BitVec.toNat_ofNat]; omega
  · rw [if_neg h, BitVec.toNat_ofNat]

theorem indexAdd_snd (i : Addr) (a : Byte) : (indexAdd i a).2 = if i.toNat + a.toNat > 0xFFF then 1 else 0 := by
  rw [indexAdd_eq]
  by_cases h : i.toNat + a.toNat > 0xFFF
  · rw [if_pos h, if_pos h]
  · rw [if_neg h, if_neg h]

/-- FX07's byte is the timer modulo 256 (44_keypad_and_timers R164). -/
theorem timerByte_toNat (t : Int) : ((timerByte t).toNat : Int) = t % 256 := by
  simp only [timerByte, BitVec.toNat_ofInt]
  omega

/-- BNNN's target is the sum modulo 4096 (40_cycle_and_control R93). -/
theorem offsetTarget_toNat (b : Byte) (nnn : Addr) :
    (offsetTarget b nnn).toNat = (b.toNat + nnn.toNat) % 4096 := by
  have hn := nnn.isLt
  have h : (0xB#4 ++ nnn).toNat = 0xB000 + nnn.toNat := by
    rw [BitVec.toNat_append, ← Nat.shiftLeft_add_eq_or_of_lt hn]
    rfl
  simp only [offsetTarget, BitVec.toNat_ofNat, mask12, h]
  omega

theorem latchEquals_iff (key : Option Key) (b : Byte) :
    latchEquals key b = true ↔ ∃ k, key = some k ∧ k.val = b.toNat := by
  cases key <;> simp [latchEquals]

end Sys2Proof.Machine
end

