-- ==== Sys2Proof/Laws/Memory.lean ====
section
/-! SUPPORT. The laws of memory: a byte read after a write, and the canonical form kept by every operation. -/

namespace Sys2Proof.Machine

variable {f : Font}

/-! ### Reads after writes -/

theorem Memory.get_erase_same (m : Memory) (a : Nat) : (m.erase a).get f a = resetByte f a := by
  induction m with
  | nil => rfl
  | cons c rest ih =>
    simp only [Memory.erase, List.filter_cons] at ih ⊢
    split
    · rename_i h
      have h' : c.1 ≠ a := by simpa using h
      simp only [Memory.get, if_neg h']
      exact ih
    · exact ih

theorem Memory.get_erase_other (m : Memory) {a b : Nat} (h : b ≠ a) : (m.erase a).get f b = m.get f b := by
  induction m with
  | nil => rfl
  | cons c rest ih =>
    simp only [Memory.erase, List.filter_cons] at ih ⊢
    split
    · simp only [Memory.get]
      split
      · rfl
      · exact ih
    · rename_i hc
      have hc' : c.1 = a := by simpa using hc
      have : c.1 ≠ b := by omega
      simp only [Memory.get, if_neg this]
      exact ih

theorem Memory.get_insertCell_same (m : Memory) (a : Nat) (b : Byte) (h : ∀ c ∈ m, c.1 ≠ a) :
    Memory.get f (Memory.insertCell (a, b) m) a = b := by
  induction m with
  | nil => simp [Memory.insertCell, Memory.get]
  | cons c rest ih =>
    simp only [Memory.insertCell]
    split
    · simp [Memory.get]
    · have hc : c.1 ≠ a := h c (by simp)
      simp only [Memory.get, if_neg hc]
      exact ih (fun d hd => h d (by simp [hd]))

theorem Memory.get_insertCell_other (m : Memory) (c : Host.Cell) {b : Nat} (h : b ≠ c.1) :
    Memory.get f (Memory.insertCell c m) b = Memory.get f m b := by
  induction m with
  | nil =>
    have : c.1 ≠ b := by omega
    simp [Memory.insertCell, Memory.get, this]
  | cons d rest ih =>
    simp only [Memory.insertCell]
    split
    · have : c.1 ≠ b := by omega
      simp [Memory.get, this]
    · simp only [Memory.get]
      split
      · rfl
      · exact ih

theorem Memory.erase_absent (m : Memory) (a : Nat) : ∀ c ∈ m.erase a, c.1 ≠ a := by
  intro c hc
  have := List.of_mem_filter hc
  simpa using this

/-- A read after a write to the same place gives the value written (20_memory R51, R52). -/
@[simp] theorem Memory.get_put_same (m : Memory) (a : Nat) (b : Byte) : (m.put f a b).get f a = b := by
  unfold Memory.put
  split
  · rename_i h
    rw [Memory.get_erase_same, h]
  · exact Memory.get_insertCell_same _ _ _ (m.erase_absent a)

/-- A write leaves every other place alone (20_memory R51). -/
theorem Memory.get_put_other (m : Memory) {a c : Nat} (b : Byte) (h : c ≠ a) : (m.put f a b).get f c = m.get f c := by
  unfold Memory.put
  split
  · exact Memory.get_erase_other m h
  · rw [Memory.get_insertCell_other _ _ (by simpa using h), Memory.get_erase_other m h]

@[simp] theorem Memory.putAll_nil (m : Memory) : m.putAll f [] = m := rfl

@[simp] theorem Memory.putAll_cons (m : Memory) (c : Host.Cell) (cs : List Host.Cell) :
    m.putAll f (c :: cs) = (m.put f c.1 c.2).putAll f cs := rfl

/-- Addresses not in the list keep their byte. -/
theorem Memory.get_putAll_other (cells : List Host.Cell) (m : Memory) {a : Nat} (h : a ∉ cells.map Prod.fst) :
    (m.putAll f cells).get f a = m.get f a := by
  induction cells generalizing m with
  | nil => rfl
  | cons c cs ih =>
    simp only [List.map_cons, List.mem_cons, not_or] at h
    rw [Memory.putAll_cons, ih _ h.2, Memory.get_put_other _ _ h.1]

/-- A cell of a list without repeated addresses holds its byte afterwards. -/
theorem Memory.get_putAll_mem (cells : List Host.Cell) (m : Memory) (hnd : (cells.map Prod.fst).Nodup)
    {c : Host.Cell} (h : c ∈ cells) : (m.putAll f cells).get f c.1 = c.2 := by
  induction cells generalizing m with
  | nil => simp at h
  | cons d cs ih =>
    simp only [List.map_cons, List.nodup_cons] at hnd
    rw [Memory.putAll_cons]
    rcases List.mem_cons.mp h with rfl | h'
    · rw [Memory.get_putAll_other _ _ hnd.1, Memory.get_put_same]
    · exact ih _ hnd.2 h'

/-! ### The canonical form -/

theorem Memory.erase_wf {m : Memory} (h : m.wf f) (a : Nat) : (m.erase a).wf f :=
  ⟨h.1.filter _, fun c hc => h.2 c (List.mem_of_mem_filter hc)⟩

theorem Memory.mem_insertCell {c d : Host.Cell} {m : Memory} :
    d ∈ Memory.insertCell c m ↔ d = c ∨ d ∈ m := by
  induction m with
  | nil => simp [Memory.insertCell]
  | cons e rest ih =>
    simp only [Memory.insertCell]
    split
    · simp
    · simp only [List.mem_cons, ih]
      tauto

theorem Memory.insertCell_wf {m : Memory} (h : m.wf f) {c : Host.Cell} (hfresh : ∀ d ∈ m, d.1 ≠ c.1)
    (hc : c.1 < Config.memSize) (hb : c.2 ≠ resetByte f c.1) : Memory.wf f (Memory.insertCell c m) := by
  refine ⟨?_, fun d hd => ?_⟩
  · induction m with
    | nil => simp [Memory.insertCell]
    | cons e rest ih =>
      obtain ⟨hp, hall⟩ := h
      rw [List.pairwise_cons] at hp
      simp only [Memory.insertCell]
      split
      · rename_i hlt
        refine List.pairwise_cons.mpr ⟨fun d hd => ?_, List.pairwise_cons.mpr hp⟩
        rcases List.mem_cons.mp hd with rfl | hd'
        · exact hlt
        · exact Nat.lt_trans hlt (hp.1 d hd')
      · rename_i hge
        have hne : e.1 ≠ c.1 := hfresh e (by simp)
        refine List.pairwise_cons.mpr ⟨fun d hd => ?_, ?_⟩
        · rcases Memory.mem_insertCell.mp hd with rfl | hd'
          · omega
          · exact hp.1 d hd'
        · exact ih ⟨hp.2, fun d hd => hall d (by simp [hd])⟩ (fun d hd => hfresh d (by simp [hd]))
  · rcases Memory.mem_insertCell.mp hd with rfl | hd'
    · exact ⟨hc, hb⟩
    · exact h.2 d hd'

/-- A write inside the address space keeps the canonical form. -/
theorem Memory.put_wf {m : Memory} (h : m.wf f) {a : Nat} (ha : a < Config.memSize) (b : Byte) : (m.put f a b).wf f := by
  unfold Memory.put
  split
  · exact Memory.erase_wf h a
  · rename_i hb
    exact Memory.insertCell_wf (Memory.erase_wf h a) (m.erase_absent a) ha hb

theorem Memory.putAll_wf (cells : List Host.Cell) {m : Memory} (h : m.wf f)
    (ha : ∀ c ∈ cells, c.1 < Config.memSize) : (m.putAll f cells).wf f := by
  induction cells generalizing m with
  | nil => exact h
  | cons c cs ih =>
    rw [Memory.putAll_cons]
    exact ih (Memory.put_wf h (ha c (by simp)) c.2) (fun d hd => ha d (by simp [hd]))

/-- The memory after Reset, which lists nothing, is canonical under every font. -/
theorem Memory.nil_wf : Memory.wf f [] := ⟨List.Pairwise.nil, fun c hc => by simp at hc⟩

theorem State.reset_mem_wf : State.reset.mem.wf State.reset.params.font := by decide

/-! ### Equal memories are equal data -/

theorem Memory.get_of_lt_all (m : Memory) {a : Nat} (h : ∀ c ∈ m, a < c.1) : Memory.get f m a = resetByte f a := by
  induction m with
  | nil => rfl
  | cons c rest ih =>
    have hc : c.1 ≠ a := by have := h c (by simp); omega
    simp only [Memory.get, if_neg hc]
    exact ih (fun d hd => h d (by simp [hd]))

/-- Two canonical memories that read alike everywhere are equal. -/
theorem Memory.ext_of_wf {m n : Memory} (hm : m.wf f) (hn : n.wf f) (h : ∀ a, m.get f a = n.get f a) : m = n := by
  induction m generalizing n with
  | nil =>
    cases n with
    | nil => rfl
    | cons d ds =>
      have := h d.1
      simp only [Memory.get, if_true] at this
      exact absurd this.symm (hn.2 d (by simp)).2
  | cons c cs ih =>
    obtain ⟨hmp, hma⟩ := hm
    rw [List.pairwise_cons] at hmp
    cases n with
    | nil =>
      have := h c.1
      simp only [Memory.get, if_true] at this
      exact absurd this (hma c (by simp)).2
    | cons d ds =>
      obtain ⟨hnp, hna⟩ := hn
      rw [List.pairwise_cons] at hnp
      have hcd : c.1 = d.1 := by
        rcases Nat.lt_trichotomy c.1 d.1 with hlt | heq | hgt
        · have h1 := h c.1
          have : Memory.get f (d :: ds) c.1 = resetByte f c.1 := Memory.get_of_lt_all _ (by
            intro e he
            rcases List.mem_cons.mp he with rfl | he'
            · exact hlt
            · exact Nat.lt_trans hlt (hnp.1 e he'))
          rw [this] at h1
          simp only [Memory.get, if_true] at h1
          exact absurd h1 (hma c (by simp)).2
        · exact heq
        · have h1 := h d.1
          have : Memory.get f (c :: cs) d.1 = resetByte f d.1 := Memory.get_of_lt_all _ (by
            intro e he
            rcases List.mem_cons.mp he with rfl | he'
            · exact hgt
            · exact Nat.lt_trans hgt (hmp.1 e he'))
          rw [this] at h1
          simp only [Memory.get, if_true] at h1
          exact absurd h1.symm (hna d (by simp)).2
      have hval : c.2 = d.2 := by
        have h1 := h c.1
        simp only [Memory.get, if_true, hcd] at h1
        exact h1
      have hceq : c = d := Prod.ext hcd hval
      subst hceq
      congr 1
      refine ih ⟨hmp.2, fun e he => hma e (by simp [he])⟩ ⟨hnp.2, fun e he => hna e (by simp [he])⟩ (fun a => ?_)
      by_cases hac : c.1 = a
      · subst hac
        rw [Memory.get_of_lt_all cs hmp.1, Memory.get_of_lt_all ds hnp.1]
      · have h1 := h a
        simpa only [Memory.get, if_neg hac] using h1

end Sys2Proof.Machine
end

