-- ==== Sys2Proof/Laws/State.lean ====
section
/-! SUPPORT. One lemma per field per update of the state, each true by unfolding the update once. -/

namespace Sys2Proof.Machine

variable (s : State)

/-! ### setMem -/

@[simp] theorem State.setMem_mem (m : Memory) : (s.setMem m).mem = m := rfl
@[simp] theorem State.setMem_v (m : Memory) : (s.setMem m).v = s.v := rfl
@[simp] theorem State.setMem_i (m : Memory) : (s.setMem m).i = s.i := rfl
@[simp] theorem State.setMem_pc (m : Memory) : (s.setMem m).pc = s.pc := rfl
@[simp] theorem State.setMem_stack (m : Memory) : (s.setMem m).stack = s.stack := rfl
@[simp] theorem State.setMem_sp (m : Memory) : (s.setMem m).sp = s.sp := rfl
@[simp] theorem State.setMem_dt (m : Memory) : (s.setMem m).dt = s.dt := rfl
@[simp] theorem State.setMem_st (m : Memory) : (s.setMem m).st = s.st := rfl
@[simp] theorem State.setMem_fb (m : Memory) : (s.setMem m).fb = s.fb := rfl
@[simp] theorem State.setMem_key (m : Memory) : (s.setMem m).key = s.key := rfl
@[simp] theorem State.setMem_wait (m : Memory) : (s.setMem m).wait = s.wait := rfl
@[simp] theorem State.setMem_params (m : Memory) : (s.setMem m).params = s.params := rfl
@[simp] theorem State.setMem_rndIndex (m : Memory) : (s.setMem m).rndIndex = s.rndIndex := rfl

/-! ### putCells -/

@[simp] theorem State.putCells_mem (cells : List Host.Cell) :
    (s.putCells cells).mem = s.mem.putAll s.params.font cells := rfl
@[simp] theorem State.putCells_v (cells : List Host.Cell) : (s.putCells cells).v = s.v := rfl
@[simp] theorem State.putCells_i (cells : List Host.Cell) : (s.putCells cells).i = s.i := rfl
@[simp] theorem State.putCells_pc (cells : List Host.Cell) : (s.putCells cells).pc = s.pc := rfl
@[simp] theorem State.putCells_stack (cells : List Host.Cell) : (s.putCells cells).stack = s.stack := rfl
@[simp] theorem State.putCells_sp (cells : List Host.Cell) : (s.putCells cells).sp = s.sp := rfl
@[simp] theorem State.putCells_dt (cells : List Host.Cell) : (s.putCells cells).dt = s.dt := rfl
@[simp] theorem State.putCells_st (cells : List Host.Cell) : (s.putCells cells).st = s.st := rfl
@[simp] theorem State.putCells_fb (cells : List Host.Cell) : (s.putCells cells).fb = s.fb := rfl
@[simp] theorem State.putCells_key (cells : List Host.Cell) : (s.putCells cells).key = s.key := rfl
@[simp] theorem State.putCells_wait (cells : List Host.Cell) : (s.putCells cells).wait = s.wait := rfl
@[simp] theorem State.putCells_params (cells : List Host.Cell) : (s.putCells cells).params = s.params := rfl
@[simp] theorem State.putCells_rndIndex (cells : List Host.Cell) : (s.putCells cells).rndIndex = s.rndIndex := rfl

/-! ### setIndex -/

@[simp] theorem State.setIndex_mem (i : Addr) : (s.setIndex i).mem = s.mem := rfl
@[simp] theorem State.setIndex_v (i : Addr) : (s.setIndex i).v = s.v := rfl
@[simp] theorem State.setIndex_i (i : Addr) : (s.setIndex i).i = i := rfl
@[simp] theorem State.setIndex_pc (i : Addr) : (s.setIndex i).pc = s.pc := rfl
@[simp] theorem State.setIndex_stack (i : Addr) : (s.setIndex i).stack = s.stack := rfl
@[simp] theorem State.setIndex_sp (i : Addr) : (s.setIndex i).sp = s.sp := rfl
@[simp] theorem State.setIndex_dt (i : Addr) : (s.setIndex i).dt = s.dt := rfl
@[simp] theorem State.setIndex_st (i : Addr) : (s.setIndex i).st = s.st := rfl
@[simp] theorem State.setIndex_fb (i : Addr) : (s.setIndex i).fb = s.fb := rfl
@[simp] theorem State.setIndex_key (i : Addr) : (s.setIndex i).key = s.key := rfl
@[simp] theorem State.setIndex_wait (i : Addr) : (s.setIndex i).wait = s.wait := rfl
@[simp] theorem State.setIndex_params (i : Addr) : (s.setIndex i).params = s.params := rfl
@[simp] theorem State.setIndex_rndIndex (i : Addr) : (s.setIndex i).rndIndex = s.rndIndex := rfl

/-! ### setPc -/

@[simp] theorem State.setPc_mem (p : PcWord) : (s.setPc p).mem = s.mem := rfl
@[simp] theorem State.setPc_v (p : PcWord) : (s.setPc p).v = s.v := rfl
@[simp] theorem State.setPc_i (p : PcWord) : (s.setPc p).i = s.i := rfl
@[simp] theorem State.setPc_pc (p : PcWord) : (s.setPc p).pc = p := rfl
@[simp] theorem State.setPc_stack (p : PcWord) : (s.setPc p).stack = s.stack := rfl
@[simp] theorem State.setPc_sp (p : PcWord) : (s.setPc p).sp = s.sp := rfl
@[simp] theorem State.setPc_dt (p : PcWord) : (s.setPc p).dt = s.dt := rfl
@[simp] theorem State.setPc_st (p : PcWord) : (s.setPc p).st = s.st := rfl
@[simp] theorem State.setPc_fb (p : PcWord) : (s.setPc p).fb = s.fb := rfl
@[simp] theorem State.setPc_key (p : PcWord) : (s.setPc p).key = s.key := rfl
@[simp] theorem State.setPc_wait (p : PcWord) : (s.setPc p).wait = s.wait := rfl
@[simp] theorem State.setPc_params (p : PcWord) : (s.setPc p).params = s.params := rfl
@[simp] theorem State.setPc_rndIndex (p : PcWord) : (s.setPc p).rndIndex = s.rndIndex := rfl

/-! ### setStack -/

@[simp] theorem State.setStack_mem (k : Vector PcWord 16) (q : Fin 17) : (s.setStack k q).mem = s.mem := rfl
@[simp] theorem State.setStack_v (k : Vector PcWord 16) (q : Fin 17) : (s.setStack k q).v = s.v := rfl
@[simp] theorem State.setStack_i (k : Vector PcWord 16) (q : Fin 17) : (s.setStack k q).i = s.i := rfl
@[simp] theorem State.setStack_pc (k : Vector PcWord 16) (q : Fin 17) : (s.setStack k q).pc = s.pc := rfl
@[simp] theorem State.setStack_stack (k : Vector PcWord 16) (q : Fin 17) : (s.setStack k q).stack = k := rfl
@[simp] theorem State.setStack_sp (k : Vector PcWord 16) (q : Fin 17) : (s.setStack k q).sp = q := rfl
@[simp] theorem State.setStack_dt (k : Vector PcWord 16) (q : Fin 17) : (s.setStack k q).dt = s.dt := rfl
@[simp] theorem State.setStack_st (k : Vector PcWord 16) (q : Fin 17) : (s.setStack k q).st = s.st := rfl
@[simp] theorem State.setStack_fb (k : Vector PcWord 16) (q : Fin 17) : (s.setStack k q).fb = s.fb := rfl
@[simp] theorem State.setStack_key (k : Vector PcWord 16) (q : Fin 17) : (s.setStack k q).key = s.key := rfl
@[simp] theorem State.setStack_wait (k : Vector PcWord 16) (q : Fin 17) : (s.setStack k q).wait = s.wait := rfl
@[simp] theorem State.setStack_params (k : Vector PcWord 16) (q : Fin 17) : (s.setStack k q).params = s.params := rfl
@[simp] theorem State.setStack_rndIndex (k : Vector PcWord 16) (q : Fin 17) : (s.setStack k q).rndIndex = s.rndIndex := rfl

/-! ### setDt -/

@[simp] theorem State.setDt_mem (z : Int) : (s.setDt z).mem = s.mem := rfl
@[simp] theorem State.setDt_v (z : Int) : (s.setDt z).v = s.v := rfl
@[simp] theorem State.setDt_i (z : Int) : (s.setDt z).i = s.i := rfl
@[simp] theorem State.setDt_pc (z : Int) : (s.setDt z).pc = s.pc := rfl
@[simp] theorem State.setDt_stack (z : Int) : (s.setDt z).stack = s.stack := rfl
@[simp] theorem State.setDt_sp (z : Int) : (s.setDt z).sp = s.sp := rfl
@[simp] theorem State.setDt_dt (z : Int) : (s.setDt z).dt = z := rfl
@[simp] theorem State.setDt_st (z : Int) : (s.setDt z).st = s.st := rfl
@[simp] theorem State.setDt_fb (z : Int) : (s.setDt z).fb = s.fb := rfl
@[simp] theorem State.setDt_key (z : Int) : (s.setDt z).key = s.key := rfl
@[simp] theorem State.setDt_wait (z : Int) : (s.setDt z).wait = s.wait := rfl
@[simp] theorem State.setDt_params (z : Int) : (s.setDt z).params = s.params := rfl
@[simp] theorem State.setDt_rndIndex (z : Int) : (s.setDt z).rndIndex = s.rndIndex := rfl

/-! ### setSt -/

@[simp] theorem State.setSt_mem (z : Int) : (s.setSt z).mem = s.mem := rfl
@[simp] theorem State.setSt_v (z : Int) : (s.setSt z).v = s.v := rfl
@[simp] theorem State.setSt_i (z : Int) : (s.setSt z).i = s.i := rfl
@[simp] theorem State.setSt_pc (z : Int) : (s.setSt z).pc = s.pc := rfl
@[simp] theorem State.setSt_stack (z : Int) : (s.setSt z).stack = s.stack := rfl
@[simp] theorem State.setSt_sp (z : Int) : (s.setSt z).sp = s.sp := rfl
@[simp] theorem State.setSt_dt (z : Int) : (s.setSt z).dt = s.dt := rfl
@[simp] theorem State.setSt_st (z : Int) : (s.setSt z).st = z := rfl
@[simp] theorem State.setSt_fb (z : Int) : (s.setSt z).fb = s.fb := rfl
@[simp] theorem State.setSt_key (z : Int) : (s.setSt z).key = s.key := rfl
@[simp] theorem State.setSt_wait (z : Int) : (s.setSt z).wait = s.wait := rfl
@[simp] theorem State.setSt_params (z : Int) : (s.setSt z).params = s.params := rfl
@[simp] theorem State.setSt_rndIndex (z : Int) : (s.setSt z).rndIndex = s.rndIndex := rfl

/-! ### setDisplay -/

@[simp] theorem State.setDisplay_mem (f : Display) : (s.setDisplay f).mem = s.mem := rfl
@[simp] theorem State.setDisplay_v (f : Display) : (s.setDisplay f).v = s.v := rfl
@[simp] theorem State.setDisplay_i (f : Display) : (s.setDisplay f).i = s.i := rfl
@[simp] theorem State.setDisplay_pc (f : Display) : (s.setDisplay f).pc = s.pc := rfl
@[simp] theorem State.setDisplay_stack (f : Display) : (s.setDisplay f).stack = s.stack := rfl
@[simp] theorem State.setDisplay_sp (f : Display) : (s.setDisplay f).sp = s.sp := rfl
@[simp] theorem State.setDisplay_dt (f : Display) : (s.setDisplay f).dt = s.dt := rfl
@[simp] theorem State.setDisplay_st (f : Display) : (s.setDisplay f).st = s.st := rfl
@[simp] theorem State.setDisplay_fb (f : Display) : (s.setDisplay f).fb = f := rfl
@[simp] theorem State.setDisplay_key (f : Display) : (s.setDisplay f).key = s.key := rfl
@[simp] theorem State.setDisplay_wait (f : Display) : (s.setDisplay f).wait = s.wait := rfl
@[simp] theorem State.setDisplay_params (f : Display) : (s.setDisplay f).params = s.params := rfl
@[simp] theorem State.setDisplay_rndIndex (f : Display) : (s.setDisplay f).rndIndex = s.rndIndex := rfl

/-! ### setKey -/

@[simp] theorem State.setKey_mem (k : Option Key) : (s.setKey k).mem = s.mem := rfl
@[simp] theorem State.setKey_v (k : Option Key) : (s.setKey k).v = s.v := rfl
@[simp] theorem State.setKey_i (k : Option Key) : (s.setKey k).i = s.i := rfl
@[simp] theorem State.setKey_pc (k : Option Key) : (s.setKey k).pc = s.pc := rfl
@[simp] theorem State.setKey_stack (k : Option Key) : (s.setKey k).stack = s.stack := rfl
@[simp] theorem State.setKey_sp (k : Option Key) : (s.setKey k).sp = s.sp := rfl
@[simp] theorem State.setKey_dt (k : Option Key) : (s.setKey k).dt = s.dt := rfl
@[simp] theorem State.setKey_st (k : Option Key) : (s.setKey k).st = s.st := rfl
@[simp] theorem State.setKey_fb (k : Option Key) : (s.setKey k).fb = s.fb := rfl
@[simp] theorem State.setKey_key (k : Option Key) : (s.setKey k).key = k := rfl
@[simp] theorem State.setKey_wait (k : Option Key) : (s.setKey k).wait = s.wait := rfl
@[simp] theorem State.setKey_params (k : Option Key) : (s.setKey k).params = s.params := rfl
@[simp] theorem State.setKey_rndIndex (k : Option Key) : (s.setKey k).rndIndex = s.rndIndex := rfl

/-! ### setWait -/

@[simp] theorem State.setWait_mem (w : Bool) : (s.setWait w).mem = s.mem := rfl
@[simp] theorem State.setWait_v (w : Bool) : (s.setWait w).v = s.v := rfl
@[simp] theorem State.setWait_i (w : Bool) : (s.setWait w).i = s.i := rfl
@[simp] theorem State.setWait_pc (w : Bool) : (s.setWait w).pc = s.pc := rfl
@[simp] theorem State.setWait_stack (w : Bool) : (s.setWait w).stack = s.stack := rfl
@[simp] theorem State.setWait_sp (w : Bool) : (s.setWait w).sp = s.sp := rfl
@[simp] theorem State.setWait_dt (w : Bool) : (s.setWait w).dt = s.dt := rfl
@[simp] theorem State.setWait_st (w : Bool) : (s.setWait w).st = s.st := rfl
@[simp] theorem State.setWait_fb (w : Bool) : (s.setWait w).fb = s.fb := rfl
@[simp] theorem State.setWait_key (w : Bool) : (s.setWait w).key = s.key := rfl
@[simp] theorem State.setWait_wait (w : Bool) : (s.setWait w).wait = w := rfl
@[simp] theorem State.setWait_params (w : Bool) : (s.setWait w).params = s.params := rfl
@[simp] theorem State.setWait_rndIndex (w : Bool) : (s.setWait w).rndIndex = s.rndIndex := rfl

/-! ### setRndIndex -/

@[simp] theorem State.setRndIndex_mem (n : Nat) : (s.setRndIndex n).mem = s.mem := rfl
@[simp] theorem State.setRndIndex_v (n : Nat) : (s.setRndIndex n).v = s.v := rfl
@[simp] theorem State.setRndIndex_i (n : Nat) : (s.setRndIndex n).i = s.i := rfl
@[simp] theorem State.setRndIndex_pc (n : Nat) : (s.setRndIndex n).pc = s.pc := rfl
@[simp] theorem State.setRndIndex_stack (n : Nat) : (s.setRndIndex n).stack = s.stack := rfl
@[simp] theorem State.setRndIndex_sp (n : Nat) : (s.setRndIndex n).sp = s.sp := rfl
@[simp] theorem State.setRndIndex_dt (n : Nat) : (s.setRndIndex n).dt = s.dt := rfl
@[simp] theorem State.setRndIndex_st (n : Nat) : (s.setRndIndex n).st = s.st := rfl
@[simp] theorem State.setRndIndex_fb (n : Nat) : (s.setRndIndex n).fb = s.fb := rfl
@[simp] theorem State.setRndIndex_key (n : Nat) : (s.setRndIndex n).key = s.key := rfl
@[simp] theorem State.setRndIndex_wait (n : Nat) : (s.setRndIndex n).wait = s.wait := rfl
@[simp] theorem State.setRndIndex_params (n : Nat) : (s.setRndIndex n).params = s.params := rfl
@[simp] theorem State.setRndIndex_rndIndex (n : Nat) : (s.setRndIndex n).rndIndex = n := rfl

/-! ### setReg -/

@[simp] theorem State.setReg_mem (x : Reg) (b : Byte) : (s.setReg x b).mem = s.mem := rfl
@[simp] theorem State.setReg_v (x : Reg) (b : Byte) : (s.setReg x b).v = s.v.set x b := rfl
@[simp] theorem State.setReg_i (x : Reg) (b : Byte) : (s.setReg x b).i = s.i := rfl
@[simp] theorem State.setReg_pc (x : Reg) (b : Byte) : (s.setReg x b).pc = s.pc := rfl
@[simp] theorem State.setReg_stack (x : Reg) (b : Byte) : (s.setReg x b).stack = s.stack := rfl
@[simp] theorem State.setReg_sp (x : Reg) (b : Byte) : (s.setReg x b).sp = s.sp := rfl
@[simp] theorem State.setReg_dt (x : Reg) (b : Byte) : (s.setReg x b).dt = s.dt := rfl
@[simp] theorem State.setReg_st (x : Reg) (b : Byte) : (s.setReg x b).st = s.st := rfl
@[simp] theorem State.setReg_fb (x : Reg) (b : Byte) : (s.setReg x b).fb = s.fb := rfl
@[simp] theorem State.setReg_key (x : Reg) (b : Byte) : (s.setReg x b).key = s.key := rfl
@[simp] theorem State.setReg_wait (x : Reg) (b : Byte) : (s.setReg x b).wait = s.wait := rfl
@[simp] theorem State.setReg_params (x : Reg) (b : Byte) : (s.setReg x b).params = s.params := rfl
@[simp] theorem State.setReg_rndIndex (x : Reg) (b : Byte) : (s.setReg x b).rndIndex = s.rndIndex := rfl

end Sys2Proof.Machine
end

