-- ==== Sys2Proof/Laws/Ops.lean ====
section
/-! SUPPORT. One lemma per shared operation, saying everything it can do; callers cite it and do not unfold the
operation. -/

namespace Sys2Proof.Machine

variable (s : State)

/-! ### Registers -/

@[simp] theorem State.reg_setReg_same (x : Reg) (b : Byte) : (s.setReg x b).reg x = b := by
  simp [State.reg, State.setReg]

theorem State.reg_setReg_other {x r : Reg} (b : Byte) (h : r ≠ x) : (s.setReg x b).reg r = s.reg r := by
  have : x.val ≠ r.val := fun hv => h (Fin.ext hv.symm)
  simp [State.reg, State.setReg, this]

theorem State.reg_setReg (x r : Reg) (b : Byte) : (s.setReg x b).reg r = if r = x then b else s.reg r := by
  split
  · rename_i h; subst h; simp
  · rename_i h; exact State.reg_setReg_other s b h

@[simp] theorem State.reg_setMem (m : Memory) (r : Reg) : (s.setMem m).reg r = s.reg r := rfl
@[simp] theorem State.reg_setIndex (i : Addr) (r : Reg) : (s.setIndex i).reg r = s.reg r := rfl
@[simp] theorem State.reg_setPc (p : PcWord) (r : Reg) : (s.setPc p).reg r = s.reg r := rfl
@[simp] theorem State.reg_setStack (k : Vector PcWord 16) (q : Fin 17) (r : Reg) : (s.setStack k q).reg r = s.reg r := rfl
@[simp] theorem State.reg_setDt (z : Int) (r : Reg) : (s.setDt z).reg r = s.reg r := rfl
@[simp] theorem State.reg_setSt (z : Int) (r : Reg) : (s.setSt z).reg r = s.reg r := rfl
@[simp] theorem State.reg_setDisplay (f : Display) (r : Reg) : (s.setDisplay f).reg r = s.reg r := rfl
@[simp] theorem State.reg_setKey (k : Option Key) (r : Reg) : (s.setKey k).reg r = s.reg r := rfl
@[simp] theorem State.reg_setWait (w : Bool) (r : Reg) : (s.setWait w).reg r = s.reg r := rfl
@[simp] theorem State.reg_setRndIndex (n : Nat) (r : Reg) : (s.setRndIndex n).reg r = s.reg r := rfl

/-! ### Bytes of memory -/

@[simp] theorem State.byteAt_setMem (m : Memory) (a : Nat) : (s.setMem m).byteAt a = m.get s.params.font a := rfl
@[simp] theorem State.byteAt_setIndex (i : Addr) (a : Nat) : (s.setIndex i).byteAt a = s.byteAt a := rfl
@[simp] theorem State.byteAt_setPc (p : PcWord) (a : Nat) : (s.setPc p).byteAt a = s.byteAt a := rfl
@[simp] theorem State.byteAt_setStack (k : Vector PcWord 16) (q : Fin 17) (a : Nat) :
    (s.setStack k q).byteAt a = s.byteAt a := rfl
@[simp] theorem State.byteAt_setDt (z : Int) (a : Nat) : (s.setDt z).byteAt a = s.byteAt a := rfl
@[simp] theorem State.byteAt_setSt (z : Int) (a : Nat) : (s.setSt z).byteAt a = s.byteAt a := rfl
@[simp] theorem State.byteAt_setDisplay (f : Display) (a : Nat) : (s.setDisplay f).byteAt a = s.byteAt a := rfl
@[simp] theorem State.byteAt_setKey (k : Option Key) (a : Nat) : (s.setKey k).byteAt a = s.byteAt a := rfl
@[simp] theorem State.byteAt_setWait (w : Bool) (a : Nat) : (s.setWait w).byteAt a = s.byteAt a := rfl
@[simp] theorem State.byteAt_setRndIndex (n : Nat) (a : Nat) : (s.setRndIndex n).byteAt a = s.byteAt a := rfl
@[simp] theorem State.byteAt_setReg (x : Reg) (b : Byte) (a : Nat) : (s.setReg x b).byteAt a = s.byteAt a := rfl

/-- Several cells written: each address of the list, if it stands there once, then holds its byte. -/
theorem State.byteAt_putCells_mem {cells : List Host.Cell} (hnd : (cells.map Prod.fst).Nodup) {c : Host.Cell}
    (h : c ∈ cells) : (s.putCells cells).byteAt c.1 = c.2 := Memory.get_putAll_mem cells s.mem hnd h

/-- Several cells written: every other address keeps its byte. -/
theorem State.byteAt_putCells_other {cells : List Host.Cell} {a : Nat} (h : a ∉ cells.map Prod.fst) :
    (s.putCells cells).byteAt a = s.byteAt a := Memory.get_putAll_other cells s.mem h

/-- Cells written inside the address space keep the canonical form. -/
theorem State.putCells_wf {cells : List Host.Cell} (hs : s.mem.wf s.params.font)
    (h : ∀ c ∈ cells, c.1 < Config.memSize) : (s.putCells cells).mem.wf (s.putCells cells).params.font :=
  Memory.putAll_wf cells hs h

@[simp] theorem State.reg_putCells (cells : List Host.Cell) (r : Reg) : (s.putCells cells).reg r = s.reg r := rfl

/-! ### Effective addresses and their check (42_index_and_memory R136) -/

theorem firstOutside_none_iff (as : List Nat) : firstOutside as = none ↔ ∀ a ∈ as, a < Config.memSize := by
  simp [firstOutside, List.find?_eq_none]

theorem firstOutside_some {as : List Nat} {a : Nat} (h : firstOutside as = some a) :
    a ∈ as ∧ a ≥ Config.memSize :=
  ⟨List.mem_of_find?_eq_some h, by simpa using List.find?_some h⟩

theorem mem_effectiveAddresses (i : Addr) (n a : Nat) :
    a ∈ effectiveAddresses i n ↔ ∃ k, k < n ∧ a = i.toNat + k := by
  simp only [effectiveAddresses, List.mem_map, List.mem_range]
  exact ⟨fun ⟨k, hk, h⟩ => ⟨k, hk, h.symm⟩, fun ⟨k, hk, h⟩ => ⟨k, hk, h.symm⟩⟩

theorem effectiveAddresses_succ (i : Addr) (n : Nat) :
    effectiveAddresses i (n + 1) = effectiveAddresses i n ++ [i.toNat + n] := by
  simp [effectiveAddresses, List.range_succ]

/-- The check of a block of `n` cells at I: inside, or the first cell past the end, which is 0x1000. -/
theorem firstOutside_effectiveAddresses (i : Addr) (n : Nat) :
    firstOutside (effectiveAddresses i n) = if i.toNat + n ≤ Config.memSize then none else some Config.memSize := by
  induction n with
  | zero =>
    have := i.isLt
    simp [effectiveAddresses, firstOutside, Config.memSize]
    omega
  | succ n ih =>
    have hi := i.isLt
    have : firstOutside (effectiveAddresses i (n + 1))
        = (firstOutside (effectiveAddresses i n)).or (firstOutside [i.toNat + n]) := by
      rw [effectiveAddresses_succ, firstOutside, List.find?_append]; rfl
    have hm : Config.memSize = 4096 := rfl
    rw [this, ih]
    simp only [firstOutside, List.find?_cons, List.find?_nil]
    by_cases h1 : i.toNat + n ≤ Config.memSize
    · by_cases h2 : i.toNat + (n + 1) ≤ Config.memSize
      · have h3 : ¬ (i.toNat + n ≥ Config.memSize) := by omega
        simp [h1, h2, h3]
      · have h3 : i.toNat + n = Config.memSize := by omega
        simp [h3]
        omega
    · have h2 : ¬ i.toNat + (n + 1) ≤ Config.memSize := by omega
      simp [h1, h2]

/-- A checked read: the error for address 0x1000 when a cell of the block lies past the end, else what follows. -/
theorem checkedRead_block (i : Addr) (n : Nat) (go : Result) :
    checkedRead (effectiveAddresses i n) go
      = if i.toNat + n ≤ Config.memSize then go else .fault (.memReadOutOfRange Config.memSize) := by
  rw [checkedRead, firstOutside_effectiveAddresses]
  by_cases h : i.toNat + n ≤ Config.memSize
  · rw [if_pos h, if_pos h]
  · rw [if_neg h, if_neg h]; rfl

/-! ### Stores -/

/-- A checked store: every cell written, or the error and nothing written. -/
theorem storeCells_cases (cells : List Host.Cell) :
    (storeCells cells s = .next (s.putCells cells) ∧ ∀ c ∈ cells, c.1 < Config.memSize) ∨
    (∃ a, storeCells cells s = .fault (.memWriteOutOfRange a) ∧ firstOutside (cells.map Prod.fst) = some a ∧
      a ∈ cells.map Prod.fst ∧ a ≥ Config.memSize) := by
  unfold storeCells
  cases h : firstOutside (cells.map Prod.fst) with
  | none =>
    refine .inl ⟨rfl, fun c hc => ?_⟩
    exact (firstOutside_none_iff _).mp h c.1 (List.mem_map_of_mem hc)
  | some a => exact .inr ⟨a, rfl, rfl, firstOutside_some h⟩

theorem storeCells_inside {cells : List Host.Cell} (h : ∀ c ∈ cells, c.1 < Config.memSize) :
    storeCells cells s = .next (s.putCells cells) := by
  have : firstOutside (cells.map Prod.fst) = none := by
    rw [firstOutside_none_iff]
    intro a ha
    obtain ⟨c, hc, rfl⟩ := List.mem_map.mp ha
    exact h c hc
  simp [storeCells, this]

theorem registerCells_addresses (x : Reg) :
    (registerCells s x).map Prod.fst = effectiveAddresses s.i (x.val + 1) := by
  simp [registerCells, effectiveAddresses, Function.comp_def]

theorem effectiveAddresses_nodup (i : Addr) (n : Nat) : (effectiveAddresses i n).Nodup := by
  refine List.Nodup.map (fun a b h => ?_) List.nodup_range
  have h' : i.toNat + a = i.toNat + b := h
  omega

/-- The cells FX33 writes: each digit that exists, ascending (42_index_and_memory R133). -/
theorem bcdCells_eq (z : BcdZero) (i : Addr) (b : Byte) : bcdCells z i b =
    (if b.toNat ≥ 100 then [(i.toNat, BitVec.ofNat 8 (b.toNat / 100))] else [])
    ++ (if b.toNat ≥ 10 then [(i.toNat + 1, BitVec.ofNat 8 (b.toNat / 10 % 10))] else [])
    ++ (if b.toNat ≥ 1 ∨ z = .oneDigit then [(i.toNat + 2, BitVec.ofNat 8 (b.toNat % 10))] else []) := by
  unfold bcdCells
  by_cases h1 : b.toNat ≥ 100
  · have h2 : b.toNat ≥ 10 := by omega
    have h3 : b.toNat ≥ 1 := by omega
    simp [h1, h2, h3]
  · by_cases h2 : b.toNat ≥ 10
    · have h3 : b.toNat ≥ 1 := by omega
      simp [h1, h2, h3]
    · by_cases h3 : b.toNat ≥ 1
      · simp [h1, h2, h3]
      · have h0 : b.toNat = 0 := by omega
        cases z <;> simp [h0]

theorem mem_registerCells (x r : Reg) (h : r.val ≤ x.val) : (s.i.toNat + r.val, s.reg r) ∈ registerCells s x := by
  refine List.mem_map.mpr ⟨r.val, List.mem_range.mpr (by omega), ?_⟩
  have : Fin.ofNat 16 r.val = r := Fin.ext (Nat.mod_eq_of_lt r.isLt)
  rw [this]

/-! ### FX65's registers -/

/-- Loading `n` registers from a list of bytes changes V alone: V[k] for k below `n`. -/
theorem loadFold_spec (f : Nat → Byte) (n : Nat) (hn : n ≤ 16) :
    let t := (List.range n).foldl (fun t k => t.setReg (Fin.ofNat 16 k) (f k)) s
    (∀ r : Reg, t.reg r = if r.val < n then f r.val else s.reg r) ∧ t = { s with v := t.v } := by
  induction n with
  | zero => exact ⟨fun r => by simp, rfl⟩
  | succ n ih =>
    obtain ⟨ihr, ihs⟩ := ih (by omega)
    rw [List.range_succ, List.foldl_append]
    simp only [List.foldl_cons, List.foldl_nil]
    refine ⟨fun r => ?_, ?_⟩
    · rw [State.reg_setReg]
      by_cases hr : r.val = n
      · have : r = Fin.ofNat 16 n := Fin.ext (by simp [Fin.ofNat, hr]; omega)
        rw [if_pos this, if_pos (by omega), hr]
      · have : r ≠ Fin.ofNat 16 n := by
          intro h
          apply hr
          rw [h]
          simp [Fin.ofNat]
          omega
        rw [if_neg this, ihr r]
        by_cases h2 : r.val < n
        · rw [if_pos h2, if_pos (by omega)]
        · rw [if_neg h2, if_neg (by omega)]
    · generalize (List.range n).foldl (fun t k => t.setReg (Fin.ofNat 16 k) (f k)) s = t at ihs ⊢
      rw [ihs]; rfl

theorem loadRegisters_reg (x r : Reg) :
    (loadRegisters s x).reg r = if r.val ≤ x.val then s.byteAt (s.i.toNat + r.val) else s.reg r := by
  have := (loadFold_spec s (fun k => s.byteAt (s.i.toNat + k)) (x.val + 1) (by omega)).1 r
  rw [loadRegisters, this]
  simp only [Nat.lt_succ_iff]

/-- FX65 changes V alone. -/
theorem loadRegisters_frame (x : Reg) : loadRegisters s x = { s with v := (loadRegisters s x).v } :=
  (loadFold_spec s (fun k => s.byteAt (s.i.toNat + k)) (x.val + 1) (by omega)).2

/-! ### The return stack -/

theorem push_room (a : PcWord) (h : s.sp.val < 16) :
    push a s = .ok (s.setStack (s.stack.set s.sp.val a) ⟨s.sp.val + 1, by omega⟩) := by
  simp [push, h]

theorem push_full (a : PcWord) (h : s.sp.val = 16) : push a s = .error .stackOverflow := by
  simp [push, h]

theorem pop_saved (h : s.sp.val ≠ 0) :
    pop s = .ok (s.stack[s.sp.val - 1]'(by omega), s.setStack s.stack ⟨s.sp.val - 1, by omega⟩) := by
  simp [pop, h]

theorem pop_empty (h : s.sp.val = 0) : pop s = .error .stackUnderflow := by
  simp [pop, h]

/-! ### Skips -/

/-- A skip changes PC alone, by 2 when the condition holds. -/
theorem skipIf_eq (c : Bool) : skipIf c s = s.setPc (if c then s.pc + 2 else s.pc) := by
  cases c <;> rfl

/-! ### Timers -/

theorem decrementTimer_none (t : Int) : decrementTimer none t = t - 1 := rfl

/-- A timer that falls stays in its range (10_state R22, R31). -/
theorem decrementTimer_range {floor : Option Nat} {t : Int} (h : t ≤ 255) :
    decrementTimer floor t ≤ 255 ∧ ∀ n, floor = some n → -(n : Int) ≤ decrementTimer floor t := by
  cases floor with
  | none => exact ⟨by simp only [decrementTimer]; omega, fun n hn => by simp at hn⟩
  | some m =>
    refine ⟨by simp only [decrementTimer]; omega, fun n hn => ?_⟩
    cases hn
    simp only [decrementTimer]
    omega

/-! ### Steps 1 and 2 of the cycle -/

theorem wakeTest_eq : wakeTest s = s.setWait (s.wait && s.key.isNone) := by
  cases s with
  | mk mem v i pc stack sp dt st fb key wait params rndIndex =>
    cases wait <;> cases key <;> rfl

/-! ### Fetch -/

theorem fetch_inside (h : s.pc.toNat < 0xFFF) :
    fetch s = .ok (wordOfBytes (s.byteAt s.pc.toNat) (s.byteAt (s.pc.toNat + 1)), s.setPc (s.pc + 2)) := by
  have : ¬ s.pc.toNat ≥ 0xFFF := by omega
  simp [fetch, this]

theorem fetch_outside (h : s.pc.toNat ≥ 0xFFF) : fetch s = .error (.fetchOutOfRange s.pc) := by
  simp [fetch, h]

/-- PC after a fetch is two more, without wrapping (10_state R17). -/
theorem fetched_pc (h : s.pc.toNat < 0xFFF) : (s.pc + 2).toNat = s.pc.toNat + 2 := by
  have : (2 : PcWord).toNat = 2 := rfl
  rw [BitVec.toNat_add, this]
  omega

end Sys2Proof.Machine
end

