-- ==== Sys2Proof/Laws/Frames.lean ====
section
/-! SUPPORT. The frame of every update of the state, and how frames compose: a frame of an instruction is put together
from these. -/

namespace Sys2Proof.Machine

theorem Agree.refl (s : State) (p : Part) : Agree s s p := by
  cases p <;> simp [Agree]

theorem Agree.trans {s t u : State} {p : Part} (h : Agree s t p) (k : Agree t u p) : Agree s u p := by
  cases p <;> simp only [Agree] at h k ⊢
  case mem => exact fun a => (k a).trans (h a)
  case regs => exact fun r => (k r).trans (h r)
  case stack => exact ⟨k.1.trans h.1, k.2.trans h.2⟩
  all_goals exact k.trans h

theorem Frame.refl (ps : List Part) (s : State) : Frame ps s s := fun p _ => Agree.refl s p

/-- A frame of one step and a frame of the next are a frame of both. -/
theorem Frame.trans {ps : List Part} {s t u : State} (h : Frame ps s t) (k : Frame ps t u) : Frame ps s u :=
  fun p hp => (h p hp).trans (k p hp)

/-- A frame stays true when more pieces may change. -/
theorem Frame.mono {ps qs : List Part} {s t : State} (h : Frame ps s t) (hsub : ∀ p ∈ ps, p ∈ qs) : Frame qs s t :=
  fun p hp => h p (fun hp' => hp (hsub p hp'))

variable (s : State)

theorem frame_setMem (m : Memory) : Frame [.mem] s (s.setMem m) := by
  intro p hp; cases p <;> simp_all [Agree]

theorem frame_putCells (cells : List Host.Cell) : Frame [.mem] s (s.putCells cells) := frame_setMem s _

theorem frame_setReg (x : Reg) (b : Byte) : Frame [.regs] s (s.setReg x b) := by
  intro p hp; cases p <;> simp_all [Agree]

theorem frame_setIndex (i : Addr) : Frame [.index] s (s.setIndex i) := by
  intro p hp; cases p <;> simp_all [Agree]

theorem frame_setPc (q : PcWord) : Frame [.pc] s (s.setPc q) := by
  intro p hp; cases p <;> simp_all [Agree]

theorem frame_setStack (k : Vector PcWord 16) (q : Fin 17) : Frame [.stack] s (s.setStack k q) := by
  intro p hp; cases p <;> simp_all [Agree]

theorem frame_setDt (z : Int) : Frame [.dt] s (s.setDt z) := by
  intro p hp; cases p <;> simp_all [Agree]

theorem frame_setSt (z : Int) : Frame [.st] s (s.setSt z) := by
  intro p hp; cases p <;> simp_all [Agree]

theorem frame_setDisplay (f : Display) : Frame [.display] s (s.setDisplay f) := by
  intro p hp; cases p <;> simp_all [Agree]

theorem frame_setKey (k : Option Key) : Frame [.key] s (s.setKey k) := by
  intro p hp; cases p <;> simp_all [Agree]

theorem frame_setWait (w : Bool) : Frame [.wait] s (s.setWait w) := by
  intro p hp; cases p <;> simp_all [Agree]

theorem frame_setRndIndex (n : Nat) : Frame [.rnd] s (s.setRndIndex n) := by
  intro p hp; cases p <;> simp_all [Agree]

/-- A frame of a state that differs in V alone. -/
theorem frame_v (w : Vector Byte 16) : Frame [.regs] s { s with v := w } := by
  intro p hp; cases p <;> simp_all [Agree, State.byteAt]

theorem RegsFrame.refl (rs : List Reg) : RegsFrame rs s s := fun _ _ => rfl

theorem regsFrame_setReg (x : Reg) (b : Byte) : RegsFrame [x] s (s.setReg x b) := by
  intro r hr
  exact State.reg_setReg_other s b (by simpa using hr)

/-- Two registers written, in whichever order. -/
theorem regsFrame_setReg_setReg (x y : Reg) (b c : Byte) : RegsFrame [x, y] s ((s.setReg x b).setReg y c) := by
  intro r hr
  simp only [List.mem_cons, List.not_mem_nil, or_false, not_or] at hr
  rw [State.reg_setReg_other _ c hr.2, State.reg_setReg_other _ b hr.1]

/-- A store leaves every byte outside its cells alone. -/
theorem bytesFrame_putCells (cells : List Host.Cell) :
    BytesFrame (cells.map Prod.fst) s (s.putCells cells) := by
  intro a ha
  exact State.byteAt_putCells_other s ha

end Sys2Proof.Machine
end

