-- ==== Sys2Proof/Laws/Alu.lean ====
section
/-! SUPPORT. What the two orders of a result and a flag write leave (41_alu R116). -/

namespace Sys2Proof.Machine

variable (s : State)

theorem writeResultThenFlag_flag (x : Reg) (r : Byte × Byte) : (writeResultThenFlag x r s).reg VF = r.2 := by
  simp [writeResultThenFlag]

theorem writeResultThenFlag_result {x : Reg} (r : Byte × Byte) (h : x ≠ VF) :
    (writeResultThenFlag x r s).reg x = r.1 := by
  rw [writeResultThenFlag, State.reg_setReg_other _ _ h, State.reg_setReg_same]

theorem writeResultThenFlag_regs (x : Reg) (r : Byte × Byte) : RegsFrame [x, VF] s (writeResultThenFlag x r s) :=
  regsFrame_setReg_setReg s _ _ _ _

theorem writeResultThenFlag_frame (x : Reg) (r : Byte × Byte) : Frame [.regs] s (writeResultThenFlag x r s) :=
  (frame_setReg s _ _).trans (frame_setReg _ _ _)

theorem writeFlagThenResult_apart {x : Reg} (flag f : Byte → Byte) (h : x ≠ VF) :
    (writeFlagThenResult x flag f s).reg x = f (s.reg x) ∧ (writeFlagThenResult x flag f s).reg VF = flag (s.reg x) := by
  unfold writeFlagThenResult
  constructor
  · rw [State.reg_setReg_same, State.reg_setReg_other _ _ h]
  · rw [State.reg_setReg_other _ _ (fun e => h e.symm), State.reg_setReg_same]

theorem writeFlagThenResult_vf (flag f : Byte → Byte) :
    (writeFlagThenResult VF flag f s).reg VF = f (flag (s.reg VF)) := by
  unfold writeFlagThenResult
  rw [State.reg_setReg_same, State.reg_setReg_same]

theorem writeFlagThenResult_regs (x : Reg) (flag f : Byte → Byte) :
    RegsFrame [x, VF] s (writeFlagThenResult x flag f s) := by
  intro r hr
  exact regsFrame_setReg_setReg s _ _ _ _ r (by simp at hr ⊢; tauto)

theorem writeFlagThenResult_frame (x : Reg) (flag f : Byte → Byte) : Frame [.regs] s (writeFlagThenResult x flag f s) :=
  (frame_setReg s _ _).trans (frame_setReg _ _ _)

end Sys2Proof.Machine
end

