-- ==== Sys2Proof/Laws/Cycle.lean ====
section
/-! SUPPORT. What a cycle and a step can do, said once: the three ways a cycle goes, and what `step` makes of them. -/

namespace Sys2Proof.Machine

variable (s : State)

/-- Steps 1 and 2 of the cycle as one update. -/
theorem beginCycle_eq : beginCycle s = { s with
    dt := decrementTimer s.params.timerFloor s.dt
    st := decrementTimer s.params.timerFloor s.st
    wait := s.wait && s.key.isNone } := by
  rw [beginCycle, wakeTest_eq]; rfl

theorem dispatching_iff : Dispatching s ↔ (beginCycle s).wait = false := by
  rw [beginCycle_eq]
  cases s with
  | mk mem v i pc stack sp dt st fb key wait params rndIndex =>
    cases wait <;> cases key <;> simp [Dispatching]

/-- The state after a fetch that takes place is the one in which the instruction is dispatched. -/
theorem fetched_eq (h : Dispatching s) : (beginCycle s).setPc (s.pc + 2) = fetchedState s := by
  have hw := (dispatching_iff s).mp h
  rw [beginCycle_eq] at hw ⊢
  simp only [fetchedState, State.setPc]
  exact congrArg (fun w => ({ s with
    dt := decrementTimer s.params.timerFloor s.dt
    st := decrementTimer s.params.timerFloor s.st
    wait := w
    pc := s.pc + 2 } : State)) hw

/-- A waiting cycle: nothing is fetched, the cycle completes. -/
theorem tick_waiting (h : ¬ Dispatching s) : tick s = cycleDone (beginCycle s) := by
  have hw : (beginCycle s).wait = true := by
    rw [dispatching_iff] at h; simpa using h
  simp [tick, hw]

/-- A refused fetch. -/
theorem tick_fetch_refused (h : Dispatching s) (hpc : s.pc.toNat ≥ 0xFFF) :
    tick s = eventAborted (.fetchOutOfRange s.pc) (beginCycle s) := by
  have hw := (dispatching_iff s).mp h
  have hp : (beginCycle s).pc = s.pc := by rw [beginCycle_eq]
  have hf : fetch (beginCycle s) = .error (.fetchOutOfRange s.pc) := by
    rw [fetch_outside _ (by rw [hp]; exact hpc), hp]
  simp [tick, hw, fetchAndDispatch, hf]

/-- A dispatched word. -/
theorem tick_dispatch (h : Dispatching s) (hpc : s.pc.toNat < 0xFFF) :
    tick s = match dispatchWord (nextWord s) (fetchedState s) with
      | .next u => cycleDone u
      | .fault e => eventAborted e (fetchedState s)
      | .refused r => eventRefused r (fetchedState s) := by
  have hw := (dispatching_iff s).mp h
  have hp : (beginCycle s).pc = s.pc := by rw [beginCycle_eq]
  have hb : ∀ a, (beginCycle s).byteAt a = s.byteAt a := by intro a; rw [beginCycle_eq]; rfl
  have hf : fetch (beginCycle s) = .ok (nextWord s, fetchedState s) := by
    rw [fetch_inside _ (by rw [hp]; exact hpc), hp, hb, hb, fetched_eq s h]
    rfl
  simp only [tick, hw, fetchAndDispatch, hf]
  rfl

/-- The three ways a cycle goes. -/
theorem cycle_cases : (¬ Dispatching s) ∨ (Dispatching s ∧ s.pc.toNat ≥ 0xFFF) ∨
    (Dispatching s ∧ s.pc.toNat < 0xFFF) := by
  by_cases h : Dispatching s
  · rcases Nat.lt_or_ge s.pc.toNat 0xFFF with h1 | h1
    · exact .inr (.inr ⟨h, h1⟩)
    · exact .inr (.inl ⟨h, h1⟩)
  · exact .inl h

theorem step_waiting (h : ¬ Dispatching s) : step s = .next (beginCycle s) := by
  simp [step, tick_waiting s h, cycleDone]

theorem step_fetch_refused (h : Dispatching s) (hpc : s.pc.toNat ≥ 0xFFF) :
    step s = .fault (.fetchOutOfRange s.pc) := by
  simp [step, tick_fetch_refused s h hpc, eventAborted]

/-- A step that fetches answers what the dispatch of the word answers. -/
theorem step_dispatch (h : Dispatching s) (hpc : s.pc.toNat < 0xFFF) :
    step s = dispatchWord (nextWord s) (fetchedState s) := by
  rw [step, tick_dispatch s h hpc]
  cases dispatchWord (nextWord s) (fetchedState s) <;> rfl

/-- A step to a next state either waited or ran an instruction (the inversion every invariant goes through). -/
theorem step_next_cases {t : State} (hs : step s = .next t) :
    (¬ Dispatching s ∧ t = beginCycle s) ∨
    (Dispatching s ∧ s.pc.toNat < 0xFFF ∧
      ∃ i, decode (nextWord s) = .ok i ∧ exec i (fetchedState s) = .next t) := by
  rcases cycle_cases s with h | ⟨h, hp⟩ | ⟨h, hp⟩
  · rw [step_waiting s h] at hs
    exact .inl ⟨h, by cases hs; rfl⟩
  · rw [step_fetch_refused s h hp] at hs
    cases hs
  · rw [step_dispatch s h hp, dispatchWord] at hs
    refine .inr ⟨h, hp, ?_⟩
    cases hd : decode (nextWord s) with
    | ok i => exact ⟨i, rfl, by rw [hd] at hs; exact hs⟩
    | error e => rw [hd] at hs; cases hs

end Sys2Proof.Machine
end

