-- ==== Sys2Proof/Laws/Decode.lean ====
section
/-! SUPPORT. The fields of an encoded word, one lemma per field and format. -/

namespace Sys2Proof

theorem nibbleOf_nibbleBits (r : Fin 16) : nibbleOf (nibbleBits r) = r := by revert r; decide

theorem nibbleBits_nibbleOf (b : BitVec 4) : nibbleBits (nibbleOf b) = b := by revert b; decide

theorem fieldP_encNNN (p : BitVec 4) (nnn : Addr) : fieldP (encNNN p nnn) = nibbleOf p := by
  unfold fieldP encNNN
  congr 1
  ext k hk
  simp only [BitVec.getElem_extractLsb', BitVec.getLsbD_append]
  rw [if_neg (by omega)]
  simp [BitVec.getLsbD, BitVec.getElem_eq_testBit_toNat]

theorem fieldNNN_encNNN (p : BitVec 4) (nnn : Addr) : fieldNNN (encNNN p nnn) = nnn := by
  unfold fieldNNN encNNN
  ext k hk
  simp only [BitVec.getElem_extractLsb', BitVec.getLsbD_append]
  rw [if_pos (by omega)]
  simp [BitVec.getLsbD, BitVec.getElem_eq_testBit_toNat]

theorem encXNN_eq (p : BitVec 4) (x : Reg) (nn : Byte) : encXNN p x nn = encNNN p (nibbleBits x ++ nn) := rfl

theorem encXYN_eq (p : BitVec 4) (x y : Reg) (n : BitVec 4) :
    encXYN p x y n = encXNN p x (nibbleBits y ++ n) := rfl

theorem fieldP_encXNN (p : BitVec 4) (x : Reg) (nn : Byte) : fieldP (encXNN p x nn) = nibbleOf p :=
  fieldP_encNNN p _

theorem fieldP_encXYN (p : BitVec 4) (x y : Reg) (n : BitVec 4) : fieldP (encXYN p x y n) = nibbleOf p :=
  fieldP_encNNN p _

theorem fieldX_encXNN (p : BitVec 4) (x : Reg) (nn : Byte) : fieldX (encXNN p x nn) = x := by
  refine Eq.trans ?_ (nibbleOf_nibbleBits x)
  unfold fieldX encXNN
  congr 1
  ext k hk
  simp only [BitVec.getElem_extractLsb', BitVec.getLsbD_append]
  rw [if_pos (by omega), if_neg (by omega)]
  simp [BitVec.getLsbD, BitVec.getElem_eq_testBit_toNat]

theorem fieldNN_encXNN (p : BitVec 4) (x : Reg) (nn : Byte) : fieldNN (encXNN p x nn) = nn := by
  unfold fieldNN encXNN
  ext k hk
  simp only [BitVec.getElem_extractLsb', BitVec.getLsbD_append]
  rw [if_pos (by omega), if_pos (by omega)]
  simp [BitVec.getLsbD, BitVec.getElem_eq_testBit_toNat]

theorem fieldX_encXYN (p : BitVec 4) (x y : Reg) (n : BitVec 4) : fieldX (encXYN p x y n) = x :=
  fieldX_encXNN p x _

theorem fieldY_encXYN (p : BitVec 4) (x y : Reg) (n : BitVec 4) : fieldY (encXYN p x y n) = y := by
  refine Eq.trans ?_ (nibbleOf_nibbleBits y)
  unfold fieldY encXYN
  congr 1
  ext k hk
  simp only [BitVec.getElem_extractLsb', BitVec.getLsbD_append]
  rw [if_pos (by omega), if_pos (by omega), if_neg (by omega)]
  simp [BitVec.getLsbD, BitVec.getElem_eq_testBit_toNat]

theorem fieldN_encXYN (p : BitVec 4) (x y : Reg) (n : BitVec 4) : fieldN (encXYN p x y n) = nibbleOf n := by
  unfold fieldN encXYN
  congr 1
  ext k hk
  simp only [BitVec.getElem_extractLsb', BitVec.getLsbD_append]
  rw [if_pos (by omega), if_pos (by omega), if_pos (by omega)]
  simp [BitVec.getLsbD, BitVec.getElem_eq_testBit_toNat]

/-- A word is its primary nibble and its NNN. -/
theorem encNNN_fields (op : OpWord) : encNNN (nibbleBits (fieldP op)) (fieldNNN op) = op := by
  unfold fieldP fieldNNN encNNN
  rw [nibbleBits_nibbleOf]
  ext k hk
  simp only [BitVec.getElem_append, BitVec.getElem_extractLsb']
  split
  · simp [BitVec.getLsbD_eq_getElem, hk]
  · have : 12 + (k - 12) = k := by omega
    simp [this, BitVec.getLsbD_eq_getElem, hk]

/-- NNN is X and NN (30_encoding R61). -/
theorem fieldNNN_split (op : OpWord) : fieldNNN op = nibbleBits (fieldX op) ++ fieldNN op := by
  unfold fieldX fieldNN fieldNNN
  rw [nibbleBits_nibbleOf]
  refine BitVec.eq_of_getLsbD_eq (fun k hk => ?_)
  simp only [BitVec.getLsbD_append, BitVec.getLsbD_extractLsb']
  by_cases h : k < 8
  · simp [h]; omega
  · have h1 : 8 + (k - 8) = k := by omega
    have h2 : k - 8 < 4 := by omega
    simp [h, h1, h2]; omega

/-- NN is Y and N (30_encoding R61). -/
theorem fieldNN_split (op : OpWord) : fieldNN op = nibbleBits (fieldY op) ++ nibbleBits (fieldN op) := by
  unfold fieldY fieldN fieldNN
  rw [nibbleBits_nibbleOf, nibbleBits_nibbleOf]
  refine BitVec.eq_of_getLsbD_eq (fun k hk => ?_)
  simp only [BitVec.getLsbD_append, BitVec.getLsbD_extractLsb']
  by_cases h : k < 4
  · simp [h]; omega
  · have h1 : 4 + (k - 4) = k := by omega
    have h2 : k - 4 < 4 := by omega
    simp [h, h1, h2]; omega

/-- Two bytes and back. -/
theorem wordOfBytes_split (op : OpWord) : wordOfBytes (highByte op) (lowByte op) = op := by
  unfold wordOfBytes highByte lowByte
  ext k hk
  simp only [BitVec.getElem_append, BitVec.getElem_extractLsb']
  split
  · simp [BitVec.getLsbD_eq_getElem, hk]
  · have : 8 + (k - 8) = k := by omega
    simp [this, BitVec.getLsbD_eq_getElem, hk]

/-! ### Fields as numbers -/

theorem fieldP_val (op : OpWord) : (fieldP op).val = op.toNat / 0x1000 := by
  have := op.isLt
  simp only [fieldP, nibbleOf, BitVec.extractLsb'_toNat, Nat.shiftRight_eq_div_pow]
  omega

theorem fieldN_val (op : OpWord) : (fieldN op).val = op.toNat % 0x10 := by
  simp [fieldN, nibbleOf, BitVec.extractLsb'_toNat]

theorem fieldNN_toNat (op : OpWord) : (fieldNN op).toNat = op.toNat % 0x100 := by
  simp [fieldNN, BitVec.extractLsb'_toNat]

/-! ### Decoding by family (30_encoding R65) -/

section
variable {op : OpWord}

theorem decode_family0 (h : fieldP op = 0x0) :
    decode op = if op = 0x00E0#16 then .ok .cls else if op = 0x00EE#16 then .ok .ret else .ok (.sys (fieldNNN op)) := by
  unfold decode; rw [h]; rfl

theorem decode_family1 (h : fieldP op = 0x1) :
    decode op = .ok (.jp (fieldNNN op)) := by
  unfold decode; rw [h]; rfl

theorem decode_family2 (h : fieldP op = 0x2) :
    decode op = .ok (.call (fieldNNN op)) := by
  unfold decode; rw [h]; rfl

theorem decode_family3 (h : fieldP op = 0x3) :
    decode op = .ok (.sei (fieldX op) (fieldNN op)) := by
  unfold decode; rw [h]; rfl

theorem decode_family4 (h : fieldP op = 0x4) :
    decode op = .ok (.snei (fieldX op) (fieldNN op)) := by
  unfold decode; rw [h]; rfl

theorem decode_family5 (h : fieldP op = 0x5) :
    decode op = if fieldN op = 0 then .ok (.ser (fieldX op) (fieldY op)) else .error (.reserved op) := by
  unfold decode; rw [h]; rfl

theorem decode_family6 (h : fieldP op = 0x6) :
    decode op = .ok (.ldi (fieldX op) (fieldNN op)) := by
  unfold decode; rw [h]; rfl

theorem decode_family7 (h : fieldP op = 0x7) :
    decode op = .ok (.addi (fieldX op) (fieldNN op)) := by
  unfold decode; rw [h]; rfl

theorem decode_family8 (h : fieldP op = 0x8) :
    decode op = decode8 op := by
  unfold decode; rw [h]; rfl

theorem decode_family9 (h : fieldP op = 0x9) :
    decode op = if fieldN op = 0 then .ok (.sner (fieldX op) (fieldY op)) else .error (.reserved op) := by
  unfold decode; rw [h]; rfl

theorem decode_familyA (h : fieldP op = 0xA) :
    decode op = .ok (.lda (fieldNNN op)) := by
  unfold decode; rw [h]; rfl

theorem decode_familyB (h : fieldP op = 0xB) :
    decode op = .ok (.jpv0 (fieldNNN op)) := by
  unfold decode; rw [h]; rfl

theorem decode_familyC (h : fieldP op = 0xC) :
    decode op = .ok (.rnd (fieldX op) (fieldNN op)) := by
  unfold decode; rw [h]; rfl

theorem decode_familyD (h : fieldP op = 0xD) :
    decode op = .ok (.drw (fieldX op) (fieldY op) (fieldN op)) := by
  unfold decode; rw [h]; rfl

theorem decode_familyE (h : fieldP op = 0xE) :
    decode op = decodeE op := by
  unfold decode; rw [h]; rfl

theorem decode_familyF (h : fieldP op = 0xF) :
    decode op = decodeF op := by
  unfold decode; rw [h]; rfl

/-- Which family a word belongs to. -/
theorem family_cases (op : OpWord) :
    fieldP op = 0 ∨ fieldP op = 1 ∨ fieldP op = 2 ∨ fieldP op = 3 ∨ fieldP op = 4 ∨ fieldP op = 5 ∨ fieldP op = 6 ∨
    fieldP op = 7 ∨ fieldP op = 8 ∨ fieldP op = 9 ∨ fieldP op = 10 ∨ fieldP op = 11 ∨ fieldP op = 12 ∨
    fieldP op = 13 ∨ fieldP op = 14 ∨ fieldP op = 15 := by
  generalize fieldP op = k
  revert k; decide

/-- A word of format NNN from its fields. -/
theorem word_of_fields_NNN (p : BitVec 4) (h : fieldP op = nibbleOf p) : encNNN p (fieldNNN op) = op := by
  have := encNNN_fields op
  rwa [h, nibbleBits_nibbleOf] at this

/-- A word of format XNN from its fields. -/
theorem word_of_fields_XNN (p : BitVec 4) (nn : Byte) (h : fieldP op = nibbleOf p) (h' : fieldNN op = nn) :
    encXNN p (fieldX op) nn = op := by
  rw [← h', encXNN_eq, ← fieldNNN_split, word_of_fields_NNN p h]

/-- A word of format XYN from its fields. -/
theorem word_of_fields_XYN (p n : BitVec 4) (h : fieldP op = nibbleOf p) (h' : fieldN op = nibbleOf n) :
    encXYN p (fieldX op) (fieldY op) n = op := by
  have hn : n = nibbleBits (fieldN op) := by rw [h', nibbleBits_nibbleOf]
  rw [hn, encXYN_eq, ← fieldNN_split, word_of_fields_XNN p _ h rfl]

end

/-! ### Words selected by a mask -/

/-- A word that a mask covering the field P takes to `m` has the field of `m`. -/
theorem fieldP_of_mask {op m : OpWord} (msk : OpWord)
    (h : op &&& msk = m) (hm : fieldP msk = 15) : fieldP op = fieldP m := by
  rw [← h]
  unfold fieldP at *
  rw [show BitVec.extractLsb' 12 4 (op &&& msk)
      = BitVec.extractLsb' 12 4 op &&& BitVec.extractLsb' 12 4 msk from by ext k hk; simp]
  have : BitVec.extractLsb' 12 4 msk = nibbleBits 15 := by rw [← hm, nibbleBits_nibbleOf]
  rw [this]
  generalize BitVec.extractLsb' 12 4 op = z
  revert z
  decide

/-- A word that a mask covering the field N takes to `m` has the field of `m`. -/
theorem fieldN_of_mask {op m : OpWord} (msk : OpWord)
    (h : op &&& msk = m) (hm : fieldN msk = 15) : fieldN op = fieldN m := by
  rw [← h]
  unfold fieldN at *
  rw [show BitVec.extractLsb' 0 4 (op &&& msk)
      = BitVec.extractLsb' 0 4 op &&& BitVec.extractLsb' 0 4 msk from by ext k hk; simp]
  have : BitVec.extractLsb' 0 4 msk = nibbleBits 15 := by rw [← hm, nibbleBits_nibbleOf]
  rw [this]
  generalize BitVec.extractLsb' 0 4 op = z
  revert z
  decide

/-- A word that a mask covering the field NN takes to `m` has the field of `m`. -/
theorem fieldNN_of_mask {op m : OpWord} (msk : OpWord)
    (h : op &&& msk = m) (hm : fieldNN msk = 0xFF) : fieldNN op = fieldNN m := by
  rw [← h]
  unfold fieldNN at *
  rw [show BitVec.extractLsb' 0 8 (op &&& msk)
      = BitVec.extractLsb' 0 8 op &&& BitVec.extractLsb' 0 8 msk from by ext k hk; simp]
  rw [hm]
  generalize BitVec.extractLsb' 0 8 op = z
  revert z
  decide +kernel

end Sys2Proof
end

