-- ==== Sys2Proof/Laws/Display.lean ====
section
/-! SUPPORT. The laws of the display: one pixel of a buffer after a pixel, a row or a list of rows was XORed into it. -/

namespace Sys2Proof.Machine

@[simp] theorem Display.pixel_clear (x : Fin 64) (y : Fin 32) : Display.pixel Display.clear x y = false := by
  simp [Display.pixel, Display.clear]

theorem Display.ext_pixel {f g : Display} (h : ∀ x y, Display.pixel f x y = Display.pixel g x y) : f = g := by
  refine Vector.ext (fun k hk => BitVec.eq_of_getLsbD_eq (fun b hb => ?_))
  exact h ⟨b, hb⟩ ⟨k, hk⟩

theorem bit_of_ofBool (p : Bool) (x b : Fin 64) :
    (BitVec.setWidth 64 (BitVec.ofBool p) <<< x.val).getLsbD b.val = (p && decide (b = x)) := by
  have hb := b.isLt
  simp only [BitVec.getLsbD_shiftLeft, BitVec.getLsbD_setWidth, BitVec.getLsbD_ofBool]
  by_cases h : b = x
  · subst h; simp
  · have hv : b.val ≠ x.val := fun e => h (Fin.ext e)
    by_cases h1 : b.val < x.val
    · simp [h, h1]
    · have : b.val - x.val ≠ 0 := by omega
      simp [h, this]

/-- XORing a pixel changes that pixel alone. -/
theorem Display.pixel_xorPixel (fb : Display) (x x' : Fin 64) (y y' : Fin 32) (p : Bool) :
    Display.pixel (Display.xorPixel fb x y p) x' y' = (Display.pixel fb x' y' ^^ (p && decide (x' = x ∧ y' = y))) := by
  unfold Display.pixel Display.xorPixel
  by_cases hy : y' = y
  · subst hy
    simp only [Fin.getElem_fin, Vector.getElem_set_self, BitVec.getLsbD_xor, bit_of_ofBool, and_true]
  · have : y.val ≠ y'.val := fun e => hy (Fin.ext e.symm)
    simp [this, hy]

@[simp] theorem Display.xorRows_nil (e : DrawEdge) (x0 ys : Nat) (fb : Display) :
    Display.xorRows e x0 ys [] fb = fb := rfl

@[simp] theorem Display.xorRows_cons (e : DrawEdge) (x0 ys : Nat) (b : Byte) (rest : List Byte) (fb : Display) :
    Display.xorRows e x0 ys (b :: rest) fb = Display.xorRows e x0 (ys + 1) rest (Display.xorRow e x0 ys b fb) := rfl

theorem place_wrap (xs ys : Nat) : place .wrap xs ys = some (Fin.ofNat 64 xs, Fin.ofNat 32 ys) := rfl

/-- The first `n` pixels of a sprite row put on the display (43_display R151). -/
theorem Display.pixel_foldRow (e : DrawEdge) (x0 ys : Nat) (p : Nat → Bool) (n : Nat) (fb : Display)
    (x : Fin 64) (y : Fin 32) :
    Display.pixel ((List.range n).foldl (fun f bit =>
        match place e (x0 + bit) ys with
        | some (x, y) => Display.xorPixel f x y (p bit)
        | none => f) fb) x y
      = (Display.pixel fb x y ^^ (List.range n).foldl (fun acc bit =>
          acc ^^ (p bit && decide (place e (x0 + bit) ys = some (x, y)))) false) := by
  induction n with
  | zero => simp
  | succ n ih =>
    rw [List.range_succ, List.foldl_append, List.foldl_append]
    simp only [List.foldl_cons, List.foldl_nil]
    rw [← Bool.xor_assoc, ← ih]
    cases h : place e (x0 + n) ys with
    | none => simp
    | some q =>
      obtain ⟨qx, qy⟩ := q
      simp only [Display.pixel_xorPixel, Option.some.injEq, Prod.mk.injEq]
      congr 2
      exact decide_eq_decide.mpr ⟨fun h => ⟨h.1.symm, h.2.symm⟩, fun h => ⟨h.1.symm, h.2.symm⟩⟩

/-- A fold that XORs one bit at most: when a single index below `n` can contribute, the fold is that bit. -/
theorem foldXor_unique (q : Nat → Bool) (n c : Nat) (h : ∀ k, k < n → k ≠ c → q k = false) :
    (List.range n).foldl (fun acc k => acc ^^ q k) false = (decide (c < n) && q c) := by
  induction n with
  | zero => simp
  | succ n ih =>
    rw [List.range_succ, List.foldl_append]
    simp only [List.foldl_cons, List.foldl_nil]
    rw [ih (fun k hk hc => h k (by omega) hc)]
    by_cases hcn : c = n
    · subst hcn; simp
    · rw [h n (by omega) (fun e => hcn e.symm)]
      have : (c < n + 1) ↔ c < n := by omega
      simp [this]

end Sys2Proof.Machine
end

