-- ==== Sys2Proof/Laws/Events.lean ====
section
/-! SUPPORT. What Load writes, the pieces the invariant rests on, and the steps of a run. -/

namespace Sys2Proof.Machine

theorem mem_programCells (words : List Nat) (c : Host.Cell) :
    c ∈ programCells words ↔ ∃ (k : Nat) (h : k < words.length),
      c = (0x200 + 2 * k, highByte (BitVec.ofNat 16 words[k])) ∨
      c = (0x200 + 2 * k + 1, lowByte (BitVec.ofNat 16 words[k])) := by
  simp only [programCells, List.mem_flatten, List.mem_mapIdx]
  constructor
  · rintro ⟨l, ⟨k, hk, rfl⟩, hc⟩
    exact ⟨k, hk, by simpa [Config.origin] using hc⟩
  · rintro ⟨k, hk, hc⟩
    exact ⟨_, ⟨k, hk, rfl⟩, by simpa [Config.origin] using hc⟩

/-- The addresses Load writes, in order: 0x200 up, each once. -/
theorem programCells_addresses (words : List Nat) :
    (programCells words).map Prod.fst = (List.range (2 * words.length)).map (0x200 + ·) := by
  unfold programCells
  induction words using List.reverseRecOn with
  | nil => rfl
  | append_singleton l a ih =>
    rw [List.mapIdx_append, List.flatten_append, List.map_append, ih]
    simp [Nat.mul_add, List.range_succ, Config.origin, ← Nat.add_assoc]

theorem programCells_nodup (words : List Nat) : ((programCells words).map Prod.fst).Nodup := by
  rw [programCells_addresses]
  exact List.Nodup.map (fun a b h => by simpa using h) List.nodup_range

theorem bytes_of_word (w : Nat) (h : w < 65536) :
    (highByte (BitVec.ofNat 16 w)).toNat = w / 256 ∧ (lowByte (BitVec.ofNat 16 w)).toNat = w % 256 := by
  simp only [highByte, lowByte, BitVec.extractLsb'_toNat, BitVec.toNat_ofNat, Nat.shiftRight_eq_div_pow]
  omega

/-- The invariant of a state that shares the pieces it speaks of with one that has it. -/
theorem CoreInv.congr {s t : State} (h : CoreInv s) (hm : t.mem = s.mem) (hpc : t.pc.toNat ≤ 0x1002)
    (hst : t.stack = s.stack) (hd : t.dt = s.dt) (he : t.st = s.st) (hp : t.params = s.params) : CoreInv t :=
  ⟨hp ▸ hm ▸ h.mem, hpc, hst ▸ h.stack, hp ▸ hd ▸ h.dt, hp ▸ he ▸ h.st⟩

theorem core_run_succ (M : Host.Core) (k : Nat) (s : M.State) : M.run (k + 1) s =
    (match M.step s with
      | .next t => M.run k t
      | .fault r => .fault r
      | .refused r => .refused r) := rfl

end Sys2Proof.Machine
end

