-- ==== Sys2Proof/Laws/PerInstr.lean ====
section
/-! SUPPORT. The per-instruction family `TableRow`: the word of a well-formed instruction is a word of its row of the opcode
table, `op AND mask = match` (30_encoding R64), and of no FIXED row but its own. -/

namespace Sys2Proof.Laws.TableRow

/-- The encoded word selects its row of the opcode table; only CLS and RET have the two FIXED words. -/
def Statement (i : Instr) : Prop :=
  i.wf = true → encode i &&& rowMask i = rowMatch i ∧
    (encode i = 0x00E0#16 → i = .cls) ∧ (encode i = 0x00EE#16 → i = .ret)

theorem primary_of_eq {p : BitVec 4} {nnn : Addr} {op : OpWord} (h : encNNN p nnn = op) : nibbleOf p = fieldP op := by
  rw [← h, fieldP_encNNN]

theorem encNNN_mask (p : BitVec 4) (nnn : Addr) : encNNN p nnn &&& 0xF000#16 = encNNN p 0#12 := by
  have h : (0xF000#16 : OpWord) = encNNN 0xF#4 0#12 := rfl
  rw [h]
  refine BitVec.eq_of_getLsbD_eq (fun k hk => ?_)
  simp only [encNNN, BitVec.getLsbD_and, BitVec.getLsbD_append]
  by_cases hlt : k < 12
  · simp [hlt]
  · have hk' : k - 12 < 4 := by omega
    have : (0xF#4).getLsbD (k - 12) = true := by
      revert hk'; generalize k - 12 = j; intro hj
      interval_cases j <;> rfl
    simp [hlt, this]

theorem encXNN_mask (p : BitVec 4) (x : Reg) (nn : Byte) : encXNN p x nn &&& 0xF0FF#16 = encXNN p 0 nn := by
  have h : (0xF0FF#16 : OpWord) = 0xF#4 ++ (0x0#4 ++ 0xFF#8) := rfl
  rw [h]
  refine BitVec.eq_of_getLsbD_eq (fun k hk => ?_)
  simp only [encXNN, BitVec.getLsbD_and, BitVec.getLsbD_append]
  by_cases h1 : k < 8
  · have : (0xFF#8).getLsbD k = true := by interval_cases k <;> rfl
    have h2 : k < 12 := by omega
    simp [h1, h2, this]
  · by_cases h2 : k < 12
    · simp [h1, h2, nibbleBits]
    · have hk' : k - 12 < 4 := by omega
      have : (0xF#4).getLsbD (k - 12) = true := by
        revert hk'; generalize k - 12 = j; intro hj
        interval_cases j <;> rfl
      simp [h2, this]

theorem encXYN_mask (p : BitVec 4) (x y : Reg) (n : BitVec 4) :
    encXYN p x y n &&& 0xF00F#16 = encXYN p 0 0 n := by
  have h : (0xF00F#16 : OpWord) = 0xF#4 ++ (0x0#4 ++ (0x0#4 ++ 0xF#4)) := rfl
  rw [h]
  refine BitVec.eq_of_getLsbD_eq (fun k hk => ?_)
  have ones : ∀ j, j < 4 → (0xF#4).getLsbD j = true := by
    intro j hj; interval_cases j <;> rfl
  simp only [encXYN, BitVec.getLsbD_and, BitVec.getLsbD_append]
  by_cases h0 : k < 4
  · have h1 : k < 8 := by omega
    have h2 : k < 12 := by omega
    simp [h0, h1, h2, ones k h0]
  · by_cases h1 : k < 8
    · have h2 : k < 12 := by omega
      simp [h0, h1, h2, nibbleBits]
    · by_cases h2 : k < 12
      · simp [h1, h2, nibbleBits]
      · simp [h2, ones (k - 12) (by omega)]

theorem cls : Statement (.cls) := by
  exact fun _ => ⟨rfl, fun _ => rfl, fun h => absurd h (by decide)⟩

theorem ret : Statement (.ret) := by
  exact fun _ => ⟨rfl, fun h => absurd h (by decide), fun _ => rfl⟩

theorem jp (nnn : Addr) : Statement (.jp nnn) := by
  exact fun _ => ⟨encNNN_mask _ _, fun h => absurd (primary_of_eq h) (by decide), fun h => absurd (primary_of_eq h) (by decide)⟩

theorem call (nnn : Addr) : Statement (.call nnn) := by
  exact fun _ => ⟨encNNN_mask _ _, fun h => absurd (primary_of_eq h) (by decide), fun h => absurd (primary_of_eq h) (by decide)⟩

theorem sei (x : Reg) (nn : Byte) : Statement (.sei x nn) := by
  exact fun _ => ⟨encNNN_mask _ _, fun h => absurd (primary_of_eq h) (by decide), fun h => absurd (primary_of_eq h) (by decide)⟩

theorem snei (x : Reg) (nn : Byte) : Statement (.snei x nn) := by
  exact fun _ => ⟨encNNN_mask _ _, fun h => absurd (primary_of_eq h) (by decide), fun h => absurd (primary_of_eq h) (by decide)⟩

theorem ser (x : Reg) (y : Reg) : Statement (.ser x y) := by
  exact fun _ => ⟨encXYN_mask _ _ _ _, fun h => absurd (primary_of_eq h) (by decide), fun h => absurd (primary_of_eq h) (by decide)⟩

theorem ldi (x : Reg) (nn : Byte) : Statement (.ldi x nn) := by
  exact fun _ => ⟨encNNN_mask _ _, fun h => absurd (primary_of_eq h) (by decide), fun h => absurd (primary_of_eq h) (by decide)⟩

theorem addi (x : Reg) (nn : Byte) : Statement (.addi x nn) := by
  exact fun _ => ⟨encNNN_mask _ _, fun h => absurd (primary_of_eq h) (by decide), fun h => absurd (primary_of_eq h) (by decide)⟩

theorem mov (x : Reg) (y : Reg) : Statement (.mov x y) := by
  exact fun _ => ⟨encXYN_mask _ _ _ _, fun h => absurd (primary_of_eq h) (by decide), fun h => absurd (primary_of_eq h) (by decide)⟩

theorem or (x : Reg) (y : Reg) : Statement (.or x y) := by
  exact fun _ => ⟨encXYN_mask _ _ _ _, fun h => absurd (primary_of_eq h) (by decide), fun h => absurd (primary_of_eq h) (by decide)⟩

theorem and (x : Reg) (y : Reg) : Statement (.and x y) := by
  exact fun _ => ⟨encXYN_mask _ _ _ _, fun h => absurd (primary_of_eq h) (by decide), fun h => absurd (primary_of_eq h) (by decide)⟩

theorem xor (x : Reg) (y : Reg) : Statement (.xor x y) := by
  exact fun _ => ⟨encXYN_mask _ _ _ _, fun h => absurd (primary_of_eq h) (by decide), fun h => absurd (primary_of_eq h) (by decide)⟩

theorem add (x : Reg) (y : Reg) : Statement (.add x y) := by
  exact fun _ => ⟨encXYN_mask _ _ _ _, fun h => absurd (primary_of_eq h) (by decide), fun h => absurd (primary_of_eq h) (by decide)⟩

theorem sub (x : Reg) (y : Reg) : Statement (.sub x y) := by
  exact fun _ => ⟨encXYN_mask _ _ _ _, fun h => absurd (primary_of_eq h) (by decide), fun h => absurd (primary_of_eq h) (by decide)⟩

theorem shr (x : Reg) (y : Reg) : Statement (.shr x y) := by
  exact fun _ => ⟨encXYN_mask _ _ _ _, fun h => absurd (primary_of_eq h) (by decide), fun h => absurd (primary_of_eq h) (by decide)⟩

theorem subn (x : Reg) (y : Reg) : Statement (.subn x y) := by
  exact fun _ => ⟨encXYN_mask _ _ _ _, fun h => absurd (primary_of_eq h) (by decide), fun h => absurd (primary_of_eq h) (by decide)⟩

theorem shl (x : Reg) (y : Reg) : Statement (.shl x y) := by
  exact fun _ => ⟨encXYN_mask _ _ _ _, fun h => absurd (primary_of_eq h) (by decide), fun h => absurd (primary_of_eq h) (by decide)⟩

theorem sner (x : Reg) (y : Reg) : Statement (.sner x y) := by
  exact fun _ => ⟨encXYN_mask _ _ _ _, fun h => absurd (primary_of_eq h) (by decide), fun h => absurd (primary_of_eq h) (by decide)⟩

theorem lda (nnn : Addr) : Statement (.lda nnn) := by
  exact fun _ => ⟨encNNN_mask _ _, fun h => absurd (primary_of_eq h) (by decide), fun h => absurd (primary_of_eq h) (by decide)⟩

theorem jpv0 (nnn : Addr) : Statement (.jpv0 nnn) := by
  exact fun _ => ⟨encNNN_mask _ _, fun h => absurd (primary_of_eq h) (by decide), fun h => absurd (primary_of_eq h) (by decide)⟩

theorem rnd (x : Reg) (nn : Byte) : Statement (.rnd x nn) := by
  exact fun _ => ⟨encNNN_mask _ _, fun h => absurd (primary_of_eq h) (by decide), fun h => absurd (primary_of_eq h) (by decide)⟩

theorem drw (x : Reg) (y : Reg) (n : Fin 16) : Statement (.drw x y n) := by
  exact fun _ => ⟨encNNN_mask _ _, fun h => absurd (primary_of_eq h) (by decide), fun h => absurd (primary_of_eq h) (by decide)⟩

theorem skp (x : Reg) : Statement (.skp x) := by
  exact fun _ => ⟨encXNN_mask _ _ _, fun h => absurd (primary_of_eq h) (by decide), fun h => absurd (primary_of_eq h) (by decide)⟩

theorem sknp (x : Reg) : Statement (.sknp x) := by
  exact fun _ => ⟨encXNN_mask _ _ _, fun h => absurd (primary_of_eq h) (by decide), fun h => absurd (primary_of_eq h) (by decide)⟩

theorem gdt (x : Reg) : Statement (.gdt x) := by
  exact fun _ => ⟨encXNN_mask _ _ _, fun h => absurd (primary_of_eq h) (by decide), fun h => absurd (primary_of_eq h) (by decide)⟩

theorem wkey (x : Reg) : Statement (.wkey x) := by
  exact fun _ => ⟨encXNN_mask _ _ _, fun h => absurd (primary_of_eq h) (by decide), fun h => absurd (primary_of_eq h) (by decide)⟩

theorem sdt (x : Reg) : Statement (.sdt x) := by
  exact fun _ => ⟨encXNN_mask _ _ _, fun h => absurd (primary_of_eq h) (by decide), fun h => absurd (primary_of_eq h) (by decide)⟩

theorem sst (x : Reg) : Statement (.sst x) := by
  exact fun _ => ⟨encXNN_mask _ _ _, fun h => absurd (primary_of_eq h) (by decide), fun h => absurd (primary_of_eq h) (by decide)⟩

theorem adda (x : Reg) : Statement (.adda x) := by
  exact fun _ => ⟨encXNN_mask _ _ _, fun h => absurd (primary_of_eq h) (by decide), fun h => absurd (primary_of_eq h) (by decide)⟩

theorem fnt (x : Reg) : Statement (.fnt x) := by
  exact fun _ => ⟨encXNN_mask _ _ _, fun h => absurd (primary_of_eq h) (by decide), fun h => absurd (primary_of_eq h) (by decide)⟩

theorem bcd (x : Reg) : Statement (.bcd x) := by
  exact fun _ => ⟨encXNN_mask _ _ _, fun h => absurd (primary_of_eq h) (by decide), fun h => absurd (primary_of_eq h) (by decide)⟩

theorem stm (x : Reg) : Statement (.stm x) := by
  exact fun _ => ⟨encXNN_mask _ _ _, fun h => absurd (primary_of_eq h) (by decide), fun h => absurd (primary_of_eq h) (by decide)⟩

theorem ldm (x : Reg) : Statement (.ldm x) := by
  exact fun _ => ⟨encXNN_mask _ _ _, fun h => absurd (primary_of_eq h) (by decide), fun h => absurd (primary_of_eq h) (by decide)⟩

theorem sys (nnn : Addr) : Statement (.sys nnn) := by
  intro hwf
  have hn : nnn ≠ 0x0E0#12 ∧ nnn ≠ 0x0EE#12 := by simpa [Instr.wf] using hwf
  refine ⟨encNNN_mask _ _, fun h => absurd ?_ hn.1, fun h => absurd ?_ hn.2⟩
  · have := congrArg fieldNNN h
    rw [encode, fieldNNN_encNNN] at this
    exact this
  · have := congrArg fieldNNN h
    rw [encode, fieldNNN_encNNN] at this
    exact this

end Sys2Proof.Laws.TableRow
end

