-- ==== Sys2Proof/Laws/Sprites.lean ====
section
/-! SUPPORT. What a row and a whole sprite do to one pixel of the display. -/

namespace Sys2Proof.Machine

/-- One row of a sprite changes exactly the eight pixels it covers (43_display R151, R153). -/
theorem Display.pixel_xorRow (e : DrawEdge) (x0 ys : Nat) (b : Byte) (fb : Display) (x : Fin 64) (y : Fin 32) :
    Display.pixel (Display.xorRow e x0 ys b fb) x y = (Display.pixel fb x y ^^
      match e with
      | .wrap =>
        let c := (x.val + 64 - x0 % 64) % 64
        decide (c < 8) && decide (ys % 32 = y.val) && b.getLsbD (7 - c)
      | .clip =>
        decide (x0 ≤ x.val) && decide (x.val < x0 + 8) && decide (ys = y.val) && b.getLsbD (7 - (x.val - x0))) := by
  refine (Display.pixel_foldRow e x0 ys (fun bit => b.getLsbD (7 - bit)) 8 fb x y).trans ?_
  congr 1
  have hx := x.isLt; have hy := y.isLt
  cases e with
  | wrap =>
    rw [foldXor_unique _ 8 ((x.val + 64 - x0 % 64) % 64)]
    · simp only [place_wrap]
      by_cases h : (x.val + 64 - x0 % 64) % 64 < 8
      · have e1 : Fin.ofNat 64 (x0 + (x.val + 64 - x0 % 64) % 64) = x := Fin.ext (by simp [Fin.ofNat]; omega)
        have e2 : (Fin.ofNat 32 ys = y) ↔ ys % 32 = y.val := by
          constructor
          · intro h; rw [← h]; rfl
          · intro h; exact Fin.ext h
        simp only [h, e1, Option.some.injEq, Prod.mk.injEq, true_and, e2, decide_true, Bool.true_and]
        rw [Bool.and_comm]
      · simp [h]
    · intro k hk hne
      have : ¬ (place .wrap (x0 + k) ys = some (x, y)) := by
        simp only [place_wrap, Option.some.injEq, Prod.mk.injEq, not_and]
        intro h; exfalso; apply hne
        have := congrArg Fin.val h; simp [Fin.ofNat] at this; omega
      simp [this]
  | clip =>
    have pc : ∀ xs, place .clip xs ys = some (x, y) ↔ xs = x.val ∧ ys = y.val := by
      intro xs
      simp only [place]
      split
      · rename_i h
        simp only [Option.some.injEq, Prod.mk.injEq]
        constructor
        · rintro ⟨h1, h2⟩
          have h1 := congrArg Fin.val h1; have h2 := congrArg Fin.val h2
          simp [Fin.ofNat] at h1 h2; omega
        · rintro ⟨h1, h2⟩; exact ⟨Fin.ext (by simp [Fin.ofNat]; omega), Fin.ext (by simp [Fin.ofNat]; omega)⟩
      · rename_i h
        simp only [reduceCtorEq, false_iff]; omega
    rw [foldXor_unique _ 8 (x.val - x0)]
    · by_cases h1 : x0 ≤ x.val
      · have e : x0 + (x.val - x0) = x.val := by omega
        have e2 : (x.val - x0 < 8) ↔ x.val < x0 + 8 := by omega
        simp only [pc, e, true_and, h1, decide_true, Bool.true_and, e2]
        rw [Bool.and_assoc]; congr 1; rw [Bool.and_comm]
      · have : ¬ (x0 + (x.val - x0) = x.val ∧ ys = y.val) := by omega
        simp [pc, this, h1]
    · intro k hk hne
      have : ¬ (x0 + k = x.val ∧ ys = y.val) := by omega
      simp [pc, this]

/-- A sprite of at most 32 rows XORs its bit into every pixel (43_display R151, R153). -/
theorem Display.pixel_xorRows (e : DrawEdge) (x0 : Nat) (f : Nat → Byte) (n y0 : Nat) (hn : n ≤ 32) (fb : Display)
    (x : Fin 64) (y : Fin 32) :
    Display.pixel (Display.xorRows e x0 y0 ((List.range n).map f) fb) x y
      = (Display.pixel fb x y ^^ spriteBit e x0 y0 n f x y) := by
  induction n generalizing y0 fb f with
  | zero =>
    cases e
    · simp [spriteBit]
    · have : ¬ (y0 ≤ y.val ∧ y.val < y0) := by omega
      simp only [spriteBit, List.range_zero, List.map_nil, Display.xorRows_nil, Nat.add_zero]
      by_cases h : y0 ≤ y.val
      · have : ¬ y.val < y0 := by omega
        simp [this]
      · simp [h]
  | succ n ih =>
    rw [List.range_succ_eq_map, List.map_cons, List.map_map, Display.xorRows_cons]
    rw [ih (f ∘ Nat.succ) (y0 + 1) (by omega), Display.pixel_xorRow, Bool.xor_assoc]
    congr 1
    have hx := x.isLt; have hy := y.isLt
    cases e with
    | wrap =>
      simp only [spriteBit]
      by_cases h0 : y0 % 32 = y.val
      · have r1 : (y.val + 32 - (y0+1) % 32) % 32 = 31 := by omega
        have : ¬ 31 < n := by omega
        simp [h0, r1, this]
      · have r1 : (y.val + 32 - (y0) % 32) % 32 = (y.val + 32 - (y0+1) % 32) % 32 + 1 := by omega
        simp [h0, r1]
    | clip =>
      simp only [spriteBit]
      by_cases h0 : y0 = y.val
      · have : ¬ y0 + 1 ≤ y.val := by omega
        have h3 : y.val - y0 = 0 := by omega
        simp [h0]
      · by_cases h1 : y0 + 1 ≤ y.val
        · have h2 : y0 ≤ y.val := by omega
          have h3 : y.val - y0 = y.val - (y0+1) + 1 := by omega
          have h4 : (y.val < y0 + 1 + n) ↔ (y.val < y0 + (n+1)) := by omega
          simp [h0, h1, h2, h3, h4]
        · have h2 : ¬ y0 ≤ y.val := by omega
          simp [h0, h1, h2]

/-- The rows DXYN draws, as a function of the row number. -/
theorem spriteRows_eq (s : State) (n : Nat) :
    spriteRows s n = (List.range n).map (fun r => s.byteAt (s.i.toNat + r)) := by
  simp [spriteRows, effectiveAddresses, Function.comp_def]

end Sys2Proof.Machine
end

