-- ==== Sys2Proof/Tests/Slice0.lean ====
section
/-! SUPPORT. Tests: the well-formedness check, one word of every row, small steps, the host's events, and a witness of the
hypotheses of every statement. Expected results come from spec/95_test_vectors (S, T, A, M, G, K, H) or the examples of the
rules. -/

namespace Sys2Proof.Tests

open Sys2Proof Sys2Proof.Machine

/-! ### Helpers -/

/-- The state after Reset and a Load of one word (95_test_vectors, conventions). -/
def start (w : Nat) : State := (State.reset.setPc 0x200).withFetchWord 16 w

/-- The step goes on to a state of which the test holds. -/
def sees (s : State) (p : State → Bool) : Bool :=
  match step s with
  | .next t => p t
  | _ => false

/-- The step ends in this fault. -/
def faults (s : State) (e : Fault) : Bool :=
  match step s with
  | .fault f => decide (f = e)
  | _ => false

/-- The instruction goes on to a state. -/
def goesOn (i : Instr) (s : State) : Bool :=
  match exec i s with
  | .next _ => true
  | _ => false

/-- A byte put into memory. -/
def poke (s : State) (a : Nat) (b : Byte) : State := s.putCells [(a, b)]

/-- The state after Reset of a machine whose timers stop at -n. -/
def withFloor (n : Nat) : State := { State.reset with params := { paramsTaken with timerFloor := some n } }

/-- The state awaiting a key after WKEY at 0x200 (95_test_vectors P5). -/
def waiting : State := ((start 0).setWait true).setPc 0x202

/-! ### Well-formedness (30_encoding R64) -/

theorem test_wf_sys_cls : (Instr.sys 0x0E0).wf = false := by decide
theorem test_wf_sys_ret : (Instr.sys 0x0EE).wf = false := by decide
theorem test_wf_sys_near : (Instr.sys 0x0E1).wf = true := by decide

/-! ### Decoding: a word of every row, written out from the encodings of 30_encoding R64 -/

theorem test_decode_cls : decode 0b0000000011100000#16 = .ok .cls := rfl
theorem test_decode_ret : decode 0b0000000011101110#16 = .ok .ret := rfl
theorem test_decode_jp : decode 0b0001001000001000#16 = .ok (.jp 0x208) := rfl
theorem test_decode_call : decode 0b0010001000001010#16 = .ok (.call 0x20A) := rfl
theorem test_decode_sei : decode 0b0011000110000001#16 = .ok (.sei 1 0x81) := rfl
theorem test_decode_snei : decode 0b0100001000000110#16 = .ok (.snei 2 0x06) := rfl
theorem test_decode_ser : decode 0b0101000100100000#16 = .ok (.ser 1 2) := rfl
theorem test_decode_ldi : decode 0b0110001100101010#16 = .ok (.ldi 3 0x2A) := rfl
theorem test_decode_addi : decode 0b0111000100001010#16 = .ok (.addi 1 0x0A) := rfl
theorem test_decode_mov : decode 0b1000000100100000#16 = .ok (.mov 1 2) := rfl
theorem test_decode_or : decode 0b1000000100100001#16 = .ok (.or 1 2) := rfl
theorem test_decode_and : decode 0b1000000100100010#16 = .ok (.and 1 2) := rfl
theorem test_decode_xor : decode 0b1000000100100011#16 = .ok (.xor 1 2) := rfl
theorem test_decode_add : decode 0b1000000100100100#16 = .ok (.add 1 2) := rfl
theorem test_decode_sub : decode 0b1000000000010101#16 = .ok (.sub 0 1) := rfl
theorem test_decode_shr : decode 0b1000001101000110#16 = .ok (.shr 3 4) := rfl
theorem test_decode_subn : decode 0b1000000100100111#16 = .ok (.subn 1 2) := rfl
theorem test_decode_shl : decode 0b1000001100001110#16 = .ok (.shl 3 0) := rfl
theorem test_decode_sner : decode 0b1001000100100000#16 = .ok (.sner 1 2) := rfl
theorem test_decode_lda : decode 0b1010001100000000#16 = .ok (.lda 0x300) := rfl
theorem test_decode_jpv0 : decode 0b1011001100000000#16 = .ok (.jpv0 0x300) := rfl
theorem test_decode_rnd : decode 0b1100001000001111#16 = .ok (.rnd 2 0x0F) := rfl
theorem test_decode_drw : decode 0b1101000100100101#16 = .ok (.drw 1 2 5) := rfl
theorem test_decode_skp : decode 0b1110001110011110#16 = .ok (.skp 3) := rfl
theorem test_decode_sknp : decode 0b1110001110100001#16 = .ok (.sknp 3) := rfl
theorem test_decode_gdt : decode 0b1111001000000111#16 = .ok (.gdt 2) := rfl
theorem test_decode_wkey : decode 0b1111000000001010#16 = .ok (.wkey 0) := rfl
theorem test_decode_sdt : decode 0b1111000100010101#16 = .ok (.sdt 1) := rfl
theorem test_decode_sst : decode 0b1111010000011000#16 = .ok (.sst 4) := rfl
theorem test_decode_adda : decode 0b1111001000011110#16 = .ok (.adda 2) := rfl
theorem test_decode_fnt : decode 0b1111000000101001#16 = .ok (.fnt 0) := rfl
theorem test_decode_bcd : decode 0b1111000000110011#16 = .ok (.bcd 0) := rfl
theorem test_decode_stm : decode 0b1111001001010101#16 = .ok (.stm 2) := rfl
theorem test_decode_ldm : decode 0b1111000001100101#16 = .ok (.ldm 0) := rfl
theorem test_decode_sys : decode 0b0000000011100001#16 = .ok (.sys 0x0E1) := rfl

/-- T21, A36, K7, M23: a reserved word of each family that has some. -/
theorem test_decode_reserved :
    decode 0x5011#16 = .error (.reserved 0x5011#16) ∧ decode 0x8018#16 = .error (.reserved 0x8018#16) ∧
    decode 0x9001#16 = .error (.reserved 0x9001#16) ∧ decode 0xE000#16 = .error (.reserved 0xE000#16) ∧
    decode 0xF075#16 = .error (.reserved 0xF075#16) := ⟨rfl, rfl, rfl, rfl, rfl⟩

/-! ### Control transfer -/

/-- T2 -/
theorem test_sys : sees (start 0x00E1) (fun t => t.pc == 0x202 && t.dt == -1 && t.st == -1) = true := by decide
/-- T5 -/
theorem test_ret : sees ((start 0x00EE).setStack (State.reset.stack.set 0 0x206) 1)
    (fun t => t.sp == 0 && t.pc == 0x206 && t.stack[0] == 0x206) = true := by decide
/-- T4, P6 -/
theorem test_ret_underflow : faults (start 0x00EE) .stackUnderflow = true ∧
    (tick (start 0x00EE)).state.pc = 0x202 ∧ (tick (start 0x00EE)).state.dt = -1 ∧
    (tick (start 0x00EE)).disp = none := by decide
/-- T6 -/
theorem test_jp : sees (start 0x1208) (fun t => t.pc == 0x208) = true := by decide
/-- T8 -/
theorem test_call : sees (start 0x220A) (fun t => t.stack[0] == 0x202 && t.sp == 1 && t.pc == 0x20A) = true := by decide
/-- T9 -/
theorem test_call_overflow : faults ((start 0x2300).setStack State.reset.stack 16) .stackOverflow = true := by decide
/-- T10 -/
theorem test_sei_taken : sees (start 0x3000) (fun t => t.pc == 0x204) = true := by decide
/-- T11 -/
theorem test_sei_not_taken : sees ((start 0x3000).setReg 0 1) (fun t => t.pc == 0x202) = true := by decide
/-- T12 -/
theorem test_snei_taken : sees ((start 0x4206).setReg 2 5) (fun t => t.pc == 0x204) = true := by decide
/-- T13 -/
theorem test_snei_not_taken : sees ((start 0x4206).setReg 2 6) (fun t => t.pc == 0x202) = true := by decide
/-- T15 -/
theorem test_ser_same : sees ((start 0x5110).setReg 1 7) (fun t => t.pc == 0x204) = true := by decide
/-- T16 -/
theorem test_sner_taken : sees (((start 0x9120).setReg 1 1).setReg 2 2) (fun t => t.pc == 0x204) = true := by decide
/-- T17 -/
theorem test_sner_same : sees ((start 0x9110).setReg 1 1) (fun t => t.pc == 0x202) = true := by decide
/-- T18 -/
theorem test_jpv0 : sees ((start 0xB300).setReg 0 0x10) (fun t => t.pc == 0x310) = true := by decide
/-- T19 -/
theorem test_jpv0_wraps : sees (((start 0xBFFF).setReg 0 0xFF).setReg VF 7)
    (fun t => t.pc == 0x0FE && t.reg VF == 7) = true := by decide

/-! ### Loads, logic, arithmetic -/

/-- A1 -/
theorem test_ldi : sees (start 0x632A) (fun t => t.reg 3 == 0x2A && t.reg VF == 0) = true := by decide
/-- A2 -/
theorem test_addi_no_flag : sees (((start 0x710A).setReg 1 0xFA).setReg VF 7)
    (fun t => t.reg 1 == 0x04 && t.reg VF == 7) = true := by decide
/-- A3 -/
theorem test_addi_vf : sees (start 0x7FFF) (fun t => t.reg VF == 0xFF) = true := by decide
/-- A5 -/
theorem test_mov : sees ((start 0x8120).setReg 2 9) (fun t => t.reg 1 == 9 && t.reg 2 == 9) = true := by decide
/-- A6 -/
theorem test_or : sees ((((start 0x8121).setReg 1 0xF0).setReg 2 0x0F).setReg VF 3)
    (fun t => t.reg 1 == 0xFF && t.reg VF == 3) = true := by decide
/-- A7 -/
theorem test_and : sees (((start 0x8122).setReg 1 0xF5).setReg 2 0x3C) (fun t => t.reg 1 == 0x34) = true := by decide
/-- A8 -/
theorem test_xor : sees (((start 0x8123).setReg 1 0xFF).setReg 2 0x0F) (fun t => t.reg 1 == 0xF0) = true := by decide
/-- A10 -/
theorem test_add_carry : sees (((start 0x8104).setReg 1 7).setReg 0 253)
    (fun t => t.reg 1 == 4 && t.reg VF == 1) = true := by decide
/-- A12 -/
theorem test_add_into_vf : sees (((start 0x8F14).setReg VF 0x80).setReg 1 0x90) (fun t => t.reg VF == 1) = true := by decide
/-- A15 -/
theorem test_sub_borrow : sees (((start 0x8015).setReg 0 5).setReg 1 7)
    (fun t => t.reg 0 == 253 && t.reg VF == 0) = true := by decide
/-- A23 -/
theorem test_sub_vf : sees (((start 0x81F5).setReg 1 0).setReg VF 1)
    (fun t => t.reg 1 == 0xFE && t.reg VF == 0) = true := by decide
/-- A25 -/
theorem test_shr_ignores_y : sees (((start 0x8346).setReg 3 4).setReg 4 0xFF)
    (fun t => t.reg 3 == 2 && t.reg VF == 0 && t.reg 4 == 0xFF) = true := by decide
/-- A26 -/
theorem test_shr_vf : sees ((start 0x8F06).setReg VF 0xFF) (fun t => t.reg VF == 0) = true := by decide
/-- A27 -/
theorem test_subn : sees (((start 0x8127).setReg 1 3).setReg 2 10)
    (fun t => t.reg 1 == 7 && t.reg VF == 1 && t.reg 2 == 10) = true := by decide
/-- A29 -/
theorem test_subn_borrow : sees (((start 0x8127).setReg 1 255).setReg 2 0)
    (fun t => t.reg 1 == 0 && t.reg VF == 0) = true := by decide
/-- A30 -/
theorem test_shl : sees ((start 0x830E).setReg 3 0x81) (fun t => t.reg 3 == 0x02 && t.reg VF == 1) = true := by decide
/-- A32 -/
theorem test_shl_vf : sees ((start 0x8F0E).setReg VF 0xFF) (fun t => t.reg VF == 2) = true := by decide
/-- A35, whatever the byte drawn -/
theorem test_rnd_mask_zero (s : State) : exec (.rnd 2 0) s = .next ((s.setRndIndex (s.rndIndex + 1)).setReg 2 0) := by
  simp [exec, execRnd, drawRandom]

/-! ### Index and memory -/

/-- M1 -/
theorem test_lda : sees (start 0xA300) (fun t => t.i == 0x300) = true := by decide
/-- M4 -/
theorem test_adda_overflow : sees (((start 0xF21E).setIndex 0xF01).setReg 2 0xFF)
    (fun t => t.i == 0 && t.reg VF == 1) = true := by decide
/-- M6 -/
theorem test_adda_vf : sees (((start 0xFF1E).setIndex 0x100).setReg VF 5)
    (fun t => t.i == 0x105 && t.reg VF == 0) = true := by decide
/-- M8 -/
theorem test_fnt : sees ((start 0xF029).setReg 0 0xF) (fun t => t.i == 0x4B) = true := by decide
/-- M9 -/
theorem test_fnt_past_f : faults ((start 0xF029).setReg 0 0x10) (.invalidFontIndex 0x10) = true := by decide
/-- S8 -/
theorem test_bcd : sees (((start 0xF033).setIndex 0x500).setReg 0 0xFE)
    (fun t => t.byteAt 0x500 == 2 && t.byteAt 0x501 == 5 && t.byteAt 0x502 == 4) = true := by decide
/-- M16, both values of BCD_ZERO -/
theorem test_bcd_zero_past_end : faults ((start 0xF033).setIndex 0xFFF) (.memWriteOutOfRange 0x1001) = true ∧
    goesOn (.bcd 0) { (start 0).setIndex 0xFFF with params := { paramsTaken with bcdZero := .noWrite } } = true := by decide
/-- M17 -/
theorem test_stm : sees (((((start 0xF255).setReg 0 1).setReg 1 2).setReg 2 3).setIndex 0x400)
    (fun t => t.byteAt 0x400 == 1 && t.byteAt 0x401 == 2 && t.byteAt 0x402 == 3 && t.i == 0x400) = true := by decide
/-- M19 -/
theorem test_stm_past_end : faults ((start 0xFF55).setIndex 0xFF1) (.memWriteOutOfRange 0x1000) = true := by decide
/-- M20 -/
theorem test_ldm : sees (poke ((start 0xF065).setIndex 0x300) 0x300 2) (fun t => t.reg 0 == 2) = true := by decide
/-- M22 -/
theorem test_ldm_past_end : faults ((start 0xF165).setIndex 0xFFF) (.memReadOutOfRange 0x1000) = true := by decide

/-! ### The display -/

/-- S7: 0x00E0 over the font at address 0, run straight after Reset -/
theorem test_cls : sees ((State.reset.withFetchWord 16 0x00E0).setReg 5 9 |>.setDisplay
      (Display.xorPixel Display.clear 4 3 true))
    (fun t => t.fb == Display.clear && t.reg 5 == 9 && t.pc == 2 && t.dt == -1 && t.st == -1) = true := by
  decide +kernel
/-- G2 -/
theorem test_drw : sees (poke ((((start 0xD121).setIndex 0x300).setReg 1 2).setReg 2 1) 0x300 0xF0)
    (fun t => Display.pixel t.fb 1 1 == false && Display.pixel t.fb 2 1 && Display.pixel t.fb 5 1
      && Display.pixel t.fb 6 1 == false && Display.pixel t.fb 2 2 == false && t.reg VF == 0) = true := by
  decide +kernel
/-- P3, its DRW under each value of DRAW_EDGE -/
theorem test_drw_edge :
    let s := poke (poke ((((start 0xD122).setIndex 0x20A).setReg 1 62).setReg 2 31) 0x20A 0xC3) 0x20B 0x81
    sees s (fun t => Display.pixel t.fb 62 31 && Display.pixel t.fb 63 31 && Display.pixel t.fb 4 31
      && Display.pixel t.fb 5 31 && Display.pixel t.fb 62 0 && Display.pixel t.fb 5 0) = true ∧
    sees { s with params := { paramsTaken with drawEdge := .clip } } (fun t => Display.pixel t.fb 62 31 && Display.pixel t.fb 63 31
      && Display.pixel t.fb 4 31 == false && Display.pixel t.fb 62 0 == false) = true := by
  decide +kernel

/-! ### Keys and timers -/

/-- K1 -/
theorem test_skp : sees (((start 0xE39E).setReg 3 7).setKey (some 7)) (fun t => t.pc == 0x204) = true := by decide
/-- K2 -/
theorem test_skp_none : sees (start 0xE09E) (fun t => t.pc == 0x202) = true := by decide
/-- K5 -/
theorem test_sknp_none : sees (start 0xE0A1) (fun t => t.pc == 0x204) = true := by decide
/-- K6 -/
theorem test_sknp_same : sees (((start 0xE0A1).setReg 0 7).setKey (some 7)) (fun t => t.pc == 0x202) = true := by decide
/-- K8 -/
theorem test_gdt_negative : sees (start 0xF007) (fun t => t.reg 0 == 0xFF && t.dt == -1) = true := by decide
/-- K9 -/
theorem test_gdt : sees ((start 0xF207).setDt 15) (fun t => t.reg 2 == 14 && t.dt == 14) = true := by decide
/-- K14 -/
theorem test_wkey : sees (start 0xF00A) (fun t => t.wait && t.pc == 0x202 && t.reg 0 == 0) = true := by decide
/-- P5, Tick 2 and Tick 4 -/
theorem test_wkey_waits_and_wakes :
    sees waiting (fun t => t.wait && t.pc == 0x202 && t.dt == -1) = true ∧
    sees (poke (poke (waiting.setKey (some 7)) 0x202 0x6A) 0x203 0x01)
      (fun t => t.wait == false && t.pc == 0x204 && t.reg 10 == 1) = true := by decide
/-- K12 -/
theorem test_sdt : sees ((start 0xF115).setReg 1 15) (fun t => t.dt == 15 && t.st == -1) = true := by decide
/-- K13 -/
theorem test_sst : sees ((start 0xF418).setReg 4 30) (fun t => t.st == 30 && t.dt == -1) = true := by decide

/-! ### The cycle and the host's events -/

/-- T24 -/
theorem test_fetch_refused : faults (State.reset.setPc 0xFFF) (.fetchOutOfRange 0xFFF) = true ∧
    (tick (State.reset.setPc 0xFFF)).state.pc = 0xFFF := by decide
/-- H7 (with the default FONT) -/
theorem test_reset_then_tick : faults State.reset (.reservedOpcode 0xF090) = true ∧
    (tick State.reset).state.pc = 2 := by decide
/-- S2 -/
theorem test_load : let t := (hostEvent (.load [0x6005, 0x1200]) State.reset).state
    t.byteAt 0x200 = 0x60 ∧ t.byteAt 0x201 = 0x05 ∧ t.byteAt 0x202 = 0x12 ∧ t.byteAt 0x203 = 0 ∧ t.pc = 0x200 := by decide
/-- H1 with another FONT: Reset seeds memory with the parameter's bytes. -/
theorem test_reset_other_font :
    let s : State := { start 0x1200 with params := { paramsTaken with font := Vector.replicate 80 0xAB } }
    let t := (hostEvent .reset s).state
    t.byteAt 0 = 0xAB ∧ t.byteAt 0x4F = 0xAB ∧ t.byteAt 0x50 = 0 ∧ t.byteAt 0x200 = 0 := by decide
/-- P8: the default FONT, the rows of digit A at 50 and the last byte -/
theorem test_default_font : (List.range 5).map (fun r => State.reset.byteAt (50 + r)) = [0xF0, 0x90, 0xF0, 0x90, 0x90] ∧
    State.reset.byteAt 0x4F = 0x80 := by decide
/-- R204: Press leaves WAIT. -/
theorem test_press_while_waiting : (hostEvent (.press 7) waiting).state = waiting.setKey (some 7) ∧
    (hostEvent (.press 7) waiting).state.wait = true := by decide
/-- H5, H6 -/
theorem test_press_release : (hostEvent (.press 9) (State.reset.setKey (some 2))).state.key = some 9 ∧
    (hostEvent .release State.reset).state = State.reset := by decide
/-- 60_exceptions R208: bit 64 * y + x is FB[y][x]. -/
theorem test_display_signal :
    (Display.signal (Display.xorPixel Display.clear 3 2 true)).getLsbD (64 * 2 + 3) = true ∧
    (Display.signal (Display.xorPixel Display.clear 3 2 true)).getLsbD (64 * 3 + 2) = false := by decide +kernel

/-! ### Witnesses: for every statement with hypotheses, states and operands that meet them, at the ends of their ranges -/

/-- The invariant of the state that `start` builds from a word. -/
theorem coreInv_start_ldi : CoreInv (start 0x632A) :=
  have h : ∀ n : Nat, (none : Option Nat) ≠ some n := fun _ => by simp
  ⟨by decide, by decide, by decide, ⟨by decide, fun n hn => absurd hn (h n)⟩, ⟨by decide, fun n hn => absurd hn (h n)⟩⟩

theorem witness_DecodeOfEncodeIsIdentity :
    (Instr.ldi 15 0xFF).wf = true ∧ (Instr.sys 0x0DF).wf = true ∧ (Instr.sys 0xFFF).wf = true := by decide

theorem witness_EncodeOfDecodeIsIdentity : ∃ i, decode 0xFF65#16 = .ok i := ⟨_, rfl⟩

theorem witness_DecodeFollowsOpcodeTable : decode 0x8124#16 = .ok (.add 1 2) ∧
    0x8124#16 &&& rowMask (.add 0 0) = rowMatch (.add 0 0) ∧ 0x00E0#16 &&& rowMask (.sys 0) = rowMatch (.sys 0) ∧
    0x00EE#16 &&& rowMask (.sys 0) = rowMatch (.sys 0) ∧ 0x0000#16 &&& rowMask (.sys 0) = rowMatch (.sys 0) :=
  ⟨rfl, by decide, by decide, by decide, by decide⟩

theorem witness_ReservedWordsAreRefused : decode 0x5001#16 = .error (.reserved 0x5001#16) ∧
    reservedWord 0x5001#16 = true ∧ reservedWord 0x5000#16 = false ∧ reservedWord 0x8FF7#16 = false ∧
    reservedWord 0x8FF8#16 = true ∧ reservedWord 0x800D#16 = true ∧ reservedWord 0x800E#16 = false ∧
    reservedWord 0x800F#16 = true ∧ reservedWord 0xE09D#16 = true ∧ reservedWord 0xE09E#16 = false ∧
    reservedWord 0xFFFF#16 = true := ⟨rfl, by decide⟩

/-- At the default place, at the last address a fetch may take, and at the end of a wait. -/
theorem witness_StepRunsDecodedInstruction :
    (Dispatching (start 0x632A) ∧ (start 0x632A).pc.toNat < 0xFFF ∧
      decode (nextWord (start 0x632A)) = .ok (.ldi 3 0x2A)) ∧
    (Dispatching (State.reset.setPc 0xFFE) ∧ (State.reset.setPc 0xFFE).pc.toNat < 0xFFF ∧
      decode (nextWord (State.reset.setPc 0xFFE)) = .ok (.sys 0)) ∧
    Dispatching (waiting.setKey (some 0)) :=
  ⟨⟨.inl rfl, by decide, rfl⟩, ⟨.inl rfl, by decide, rfl⟩, .inr rfl⟩

theorem witness_WaitingCycleOnlyLowersTimers : waiting.wait = true ∧ waiting.key = none := by decide

theorem witness_WaitLastsUntilPress : waiting.wait = true ∧ waiting.key = none := by decide

theorem witness_FetchPastEndIsRefused : Dispatching (State.reset.setPc 0xFFF) ∧
    (State.reset.setPc 0xFFF).pc.toNat ≥ 0xFFF ∧ (State.reset.setPc 0x1002).pc.toNat ≥ 0xFFF :=
  ⟨.inl rfl, by decide, by decide⟩

theorem witness_ReservedWordFaults : Dispatching (start 0x5011) ∧ (start 0x5011).pc.toNat < 0xFFF ∧
    reservedWord (nextWord (start 0x5011)) = true := ⟨.inl rfl, by decide, by decide⟩

theorem witness_AbortedCycleChangesNothingElse :
    (tick (start 0x00EE)).outcome = .error .stackUnderflow ∧
    (tick (State.reset.setPc 0xFFF)).outcome = .error (.fetchOutOfRange 0xFFF) := by decide

theorem witness_StrobeShowsDisplayOfCompletedCycle : (tick (start 0x632A)).outcome = .ok ∧ (tick waiting).outcome = .ok ∧
    (tick (start 0x00EE)).outcome ≠ .ok ∧ Event.release ≠ .tick := by decide

/-- Clauses 1 and 2: another instruction, a wait in front of SDT, and a refused fetch; clauses 3 and 4: SDT and SST. -/
theorem witness_TimersFallEveryCycle :
    ¬ (∃ x, decode (nextWord (start 0x632A)) = .ok (.sdt x)) ∧ ¬ (∃ x, decode (nextWord (start 0x632A)) = .ok (.sst x)) ∧
    (¬ Dispatching ((start 0xF115).setWait true) ∧ decode (nextWord ((start 0xF115).setWait true)) = .ok (.sdt 1)) ∧
    ¬ (State.reset.setPc 0xFFF).pc.toNat < 0xFFF ∧
    (Dispatching (start 0xF115) ∧ (start 0xF115).pc.toNat < 0xFFF ∧ decode (nextWord (start 0xF115)) = .ok (.sdt 1)) ∧
    (Dispatching (start 0xF418) ∧ (start 0xF418).pc.toNat < 0xFFF ∧ decode (nextWord (start 0xF418)) = .ok (.sst 4)) := by
  have h : decode (nextWord (start 0x632A)) = .ok (.ldi 3 0x2A) := rfl
  refine ⟨?_, ?_, ⟨?_, rfl⟩, by decide, ⟨.inl rfl, by decide, rfl⟩, ⟨.inl rfl, by decide, rfl⟩⟩
  · rintro ⟨x, hx⟩
    cases h.symm.trans hx
  · rintro ⟨x, hx⟩
    cases h.symm.trans hx
  · rintro (hw | hk)
    · exact absurd (show true = false from hw) (by decide)
    · exact absurd (show false = true from hk) (by decide)

theorem witness_StepKeepsInvariant : CoreInv (start 0x632A) ∧ ∃ t, step (start 0x632A) = .next t :=
  ⟨coreInv_start_ldi, _, rfl⟩

theorem witness_HostEventsKeepInvariant : CoreInv (start 0x632A) := coreInv_start_ldi

theorem witness_SafeRunsKeepInvariant :
    CoreInv (start 0x632A) ∧ ∃ t, SafeRun (start 0x632A) [.press 7, .tick, .release] t :=
  ⟨coreInv_start_ldi, _, .event rfl (.event rfl (.event rfl (.done _)))⟩

theorem witness_LoadPlacesWordsBigEndian :
    (∀ w ∈ List.replicate 1792 0xFFFF, w < 0x10000) ∧ 0x200 + 2 * (List.replicate 1792 0xFFFF).length ≤ 0x1000 ∧
    1791 < (List.replicate 1792 0xFFFF).length ∧
    (∀ w ∈ List.replicate 1793 0, w < 0x10000) ∧ 0x200 + 2 * (List.replicate 1793 0).length > 0x1000 := by
  refine ⟨fun w hw => ?_, ?_, ?_, fun w hw => ?_, ?_⟩
  · rw [List.eq_of_mem_replicate hw]; decide
  · rw [List.length_replicate]
  · rw [List.length_replicate]; decide
  · rw [List.eq_of_mem_replicate hw]; decide
  · rw [List.length_replicate]; decide

theorem witness_LoadTooLongChangesNothing : 0x200 + 2 * (List.replicate 1793 0).length > 0x1000 := by
  rw [List.length_replicate]; decide

theorem witness_CallsOutsideContractAreRefused : (∃ w ∈ [0xFFFF, 0x10000], w ≥ 0x10000) ∧ (16 : Nat) ≥ 16 := by decide

theorem witness_ReleaseClearsLatch : State.reset.key = none := rfl

theorem witness_OnlyHostWritesLatch : (hostEvent (.press 15) State.reset).state.key ≠ State.reset.key ∧
    15 < 16 ∧ waiting.wait = true := by
  decide

theorem witness_SysIsNoOperation :
    ((0x00E1#16).toNat < 0x1000 ∧ 0x00E1#16 ≠ 0x00E0#16 ∧ 0x00E1#16 ≠ 0x00EE#16) ∧ (0x0FFF#16).toNat < 0x1000 ∧
    Dispatching (start 0x0FFF) ∧ (start 0x0FFF).pc.toNat < 0xFFF ∧ (nextWord (start 0x0FFF)).toNat < 0x1000 ∧
    nextWord (start 0x0FFF) ≠ 0x00E0#16 ∧ nextWord (start 0x0FFF) ≠ 0x00EE#16 :=
  ⟨by decide, by decide, .inl rfl, by decide, by decide, by decide, by decide⟩

theorem witness_ReturnPopsAddress : (State.reset.setStack State.reset.stack 1).sp.val ≠ 0 ∧
    (State.reset.setStack State.reset.stack 16).sp.val ≠ 0 ∧ State.reset.sp.val = 0 := by decide

theorem witness_JumpSetsPc : (0xFFF#12).toNat = 0xFFF ∧ Dispatching (State.reset.setPc 0xFFF) := ⟨by decide, .inl rfl⟩

theorem witness_CallPushesPc : State.reset.sp.val < 16 ∧ (State.reset.setStack State.reset.stack 15).sp.val < 16 ∧
    (0 : Fin 16).val ≠ (State.reset.setStack State.reset.stack 15).sp.val ∧
    (State.reset.setStack State.reset.stack 16).sp.val = 16 := by decide

theorem witness_ReturnAfterCallComesBack : (State.reset.setStack State.reset.stack 15).sp.val < 16 ∧
    (14 : Fin 16).val < (State.reset.setStack State.reset.stack 15).sp.val := by decide

theorem witness_JumpWithOffsetWrapsInMemory : ∃ t, exec (.jpv0 0xFFF) (State.reset.setReg 0 0xFF) = .next t := ⟨_, rfl⟩

theorem witness_AddSetsCarry : (14 : Reg) ≠ VF := by decide

theorem witness_SubtractWrapsBy255 : (14 : Reg) ≠ VF := by decide

theorem witness_ShiftsOfVx : (14 : Reg) ≠ VF ∧ (15 : Reg) = VF := by decide

theorem witness_FontIndexPointsAtSprite : ((State.reset.setReg 0 15).reg 0).toNat ≤ 15 ∧
    ((State.reset.setReg 0 16).reg 0).toNat > 15 := by decide

/-- Three digits, one digit, and a zero that writes nothing past the end. -/
theorem witness_BcdStoresExistingDigits :
    (let s := (State.reset.setIndex 0xFFD).setReg 0 100
     s.i.toNat + 2 ≤ 0xFFF ∧ (s.reg 0).toNat ≥ 100 ∧ (s.reg 0).toNat ≥ 10 ∧ (s.reg 0).toNat ≥ 1) ∧
    (let s := (State.reset.setIndex 0xFFD).setReg 0 9
     s.i.toNat + 2 ≤ 0xFFF ∧ (s.reg 0).toNat ≥ 1 ∧ ¬ (s.reg 0).toNat ≥ 10) ∧
    (let s : State := { State.reset.setIndex 0xFFF with params := { paramsTaken with bcdZero := .noWrite } }
     ((s.reg 0).toNat ≥ 1 ∨ s.params.bcdZero = .oneDigit) → s.i.toNat + 2 ≤ 0xFFF) := by decide

theorem witness_BcdPastEndRaises :
    (let s := (State.reset.setIndex 0xFFE).setReg 0 1
     (s.reg 0).toNat ≥ 1 ∧ s.i.toNat + 2 > 0xFFF) ∧
    (let s := (State.reset.setIndex 0xFFF).setReg 0 10
     (s.reg 0).toNat ≥ 10 ∧ s.i.toNat + 2 > 0xFFF) ∧
    (State.reset.params.bcdZero = .oneDigit ∧ (State.reset.setIndex 0xFFF).i.toNat + 2 > 0xFFF) := by decide

theorem witness_StoreRegistersWritesBlock : (State.reset.setIndex 0xFF0).i.toNat + (15 : Reg).val ≤ 0xFFF ∧
    (15 : Reg).val ≤ (15 : Reg).val ∧ (State.reset.setIndex 0xFF1).i.toNat + (15 : Reg).val > 0xFFF := by decide

theorem witness_LoadRegistersReadsBlock : (State.reset.setIndex 0xFF0).i.toNat + (15 : Reg).val ≤ 0xFFF ∧
    (14 : Reg).val < (15 : Reg).val ∧ (State.reset.setIndex 0xFFF).i.toNat + (1 : Reg).val > 0xFFF := by decide

theorem witness_StoreThenLoadRestoresRegisters :
    ∃ t, exec (.stm 15) (State.reset.setIndex 0xFF0) = .next t ∧ t.i = t.i ∧ ∀ a, t.byteAt a = t.byteAt a :=
  ⟨_, rfl, rfl, fun _ => rfl⟩

theorem witness_StoredWordIsFetchedNext : ∃ t, exec (.stm 1) ((State.reset.setIndex 0x208).setPc 0x208) = .next t ∧
    t.pc.toNat = ((State.reset.setIndex 0x208).setPc 0x208).i.toNat + 0 ∧ 0 + 1 ≤ (1 : Reg).val :=
  ⟨_, rfl, by decide, by decide⟩

theorem witness_DrawXorsSprite : (State.reset.setIndex 0xFF1).i.toNat + (15 : Fin 16).val ≤ 0x1000 ∧
    (State.reset.setIndex 0xFFF).i.toNat + (0 : Fin 16).val ≤ 0x1000 := by decide

theorem witness_DrawPastEndRaises : (State.reset.setIndex 0xFFF).i.toNat + (2 : Fin 16).val > 0x1000 := by decide

theorem witness_DrawTwiceRestoresScreen :
    ∃ t u, exec (.drw 1 2 5) State.reset = .next t ∧ exec (.drw 1 2 5) t = .next u := ⟨_, _, rfl, rfl⟩

theorem witness_KeySkips :
    (∃ k, (State.reset.setKey (some 0)).key = some k ∧ k.val = ((State.reset.setKey (some 0)).reg 0).toNat) ∧
    (∃ k, (State.reset.setKey (some 15)).key = some k ∧ k.val ≠ ((State.reset.setKey (some 15)).reg 0).toNat) ∧
    State.reset.key = none := ⟨⟨0, rfl, by decide⟩, ⟨15, rfl, by decide⟩, rfl⟩

theorem witness_WaitForKeyEntersAndLeaves : (waiting.setKey (some 0)).wait = true ∧
    (waiting.setKey (some 0)).key = some 0 ∧ (waiting.setKey (some 0)).pc.toNat < 0xFFF ∧
    decode (nextWord (waiting.setKey (some 0))) = .ok (.sys 0) := ⟨rfl, rfl, by decide, rfl⟩

theorem witness_ReadDelayTimer : 0 ≤ State.reset.dt ∧ (State.reset.setDt 255).dt ≤ 255 := by decide

/-- No floor, and the floors 0 and -128. -/
theorem witness_SetTimers : (exec (.sdt 0) State.reset = .next (State.reset.setDt 0) ∧
      (State.reset.setDt 0).params.timerFloor = none) ∧ (withFloor 0).params.timerFloor = some 0 ∧
    (withFloor 128).params.timerFloor = some 128 := ⟨⟨rfl, rfl⟩, rfl, rfl⟩

theorem witness_EveryInstructionKeepsItsFrame : (∃ t, exec (.stm 15) State.reset = .next t) ∧
    (∃ t, exec (.call 0xFFF) State.reset = .next t) := ⟨⟨_, rfl⟩, ⟨_, rfl⟩⟩

theorem witness_SixInstructionsWriteFlag :
    ((∃ t, exec (.ldi 14 1) State.reset = .next t) ∧ writesFlag (.ldi 14 1) = false ∧ VF ∉ writesRegs (.ldi 14 1)) ∧
    ((∃ t, exec (.shr 14 15) State.reset = .next t) ∧ writesFlag (.shr 14 15) = true ∧
      (∀ y, Instr.shr 14 15 ≠ .shr VF y ∧ Instr.shr 14 15 ≠ .shl VF y) ∧
      (∀ x y, (Instr.shr 14 15 = .shr x y ∨ Instr.shr 14 15 = .shl x y ∨ Instr.shr 14 15 = .adda x) → x ≠ VF) ∧
      ∃ u, exec (.shr 14 15) (State.reset.setReg VF 1) = .next u) := by
  refine ⟨⟨⟨_, rfl⟩, rfl, by decide⟩, ⟨_, rfl⟩, rfl, by decide, ?_, ⟨_, rfl⟩⟩
  rintro x y (h | h | h) <;> cases h
  decide

theorem witness_ErrorsOnlyWhereListed : exec .ret State.reset = .fault .stackUnderflow := rfl

theorem witness_ProgramCannotSeeSoundScreenOrWait : (∃ t, exec (.drw 1 2 5) State.reset = .next t) ∧
    exec (.call 0) (State.reset.setStack State.reset.stack 16) = .fault .stackOverflow := ⟨⟨_, rfl⟩, rfl⟩

end Sys2Proof.Tests
end

section
/-! PROOFS. The control-transfer instructions (40_cycle_and_control R87 to R94): what `exec` answers for each, said once,
and the obligations O25, O27, O29, O30 and O31 put together from that and the frames of Laws/Frames. -/

namespace Sys2Proof.Machine

variable (s : State)

/-! ### RET and CALL -/

theorem frame_setStack_setPc (k : Vector PcWord 16) (q : Fin 17) (p : PcWord) :
    Frame [.pc, .stack] s ((s.setStack k q).setPc p) :=
  ((frame_setStack s k q).mono (by decide)).trans ((frame_setPc _ p).mono (by decide))

theorem exec_ret : exec .ret s = execRet s := rfl

theorem exec_ret_saved (h : s.sp.val ≠ 0) :
    exec .ret s = .next ((s.setStack s.stack ⟨s.sp.val - 1, by omega⟩).setPc (s.stack[s.sp.val - 1]'(by omega))) := by
  rw [exec_ret, execRet, pop_saved s h]

theorem exec_ret_empty (h : s.sp.val = 0) : exec .ret s = .fault .stackUnderflow := by
  simp only [exec_ret, execRet, pop_empty s h, raise]

theorem exec_call (nnn : Addr) : exec (.call nnn) s = execCall nnn s := rfl

theorem exec_call_room (nnn : Addr) (h : s.sp.val < 16) :
    exec (.call nnn) s =
      .next ((s.setStack (s.stack.set s.sp.val s.pc) ⟨s.sp.val + 1, by omega⟩).setPc (nnn.setWidth 13)) := by
  rw [exec_call, execCall, push_room s s.pc h]

theorem exec_call_full (nnn : Addr) (h : s.sp.val = 16) : exec (.call nnn) s = .fault .stackOverflow := by
  simp only [exec_call, execCall, push_full s s.pc h, raise]

/-- An address fits in PC (D2: PC has 13 bits). -/
theorem addr_setWidth_toNat (nnn : Addr) : (nnn.setWidth 13).toNat = nnn.toNat :=
  BitVec.toNat_setWidth_of_le (by decide)

/-! ### Skips -/

theorem exec_sei (x : Reg) (nn : Byte) : exec (.sei x nn) s = .next (skipIf (s.reg x == nn) s) := rfl

theorem exec_snei (x : Reg) (nn : Byte) : exec (.snei x nn) s = .next (skipIf (s.reg x != nn) s) := rfl

theorem exec_ser (x y : Reg) : exec (.ser x y) s = .next (skipIf (s.reg x == s.reg y) s) := rfl

theorem exec_sner (x y : Reg) : exec (.sner x y) s = .next (skipIf (s.reg x != s.reg y) s) := rfl

theorem skipIf_pc (c : Bool) : (skipIf c s).pc = if c then s.pc + 2 else s.pc := by
  rw [skipIf_eq, State.setPc_pc]

theorem skipIf_frame (c : Bool) : Frame [.pc] s (skipIf c s) := by
  rw [skipIf_eq]
  exact frame_setPc s _

/-- The two byte comparisons of R90 to R94: each skips as its test says and changes nothing else. -/
theorem skipIf_beq (a b : Byte) :
    (skipIf (a == b) s).pc = (if a = b then s.pc + 2 else s.pc) ∧ Frame [.pc] s (skipIf (a == b) s) :=
  ⟨by simp only [skipIf_pc, beq_iff_eq], skipIf_frame s _⟩

theorem skipIf_bne (a b : Byte) :
    (skipIf (a != b) s).pc = (if a ≠ b then s.pc + 2 else s.pc) ∧ Frame [.pc] s (skipIf (a != b) s) :=
  ⟨by simp only [skipIf_pc, bne_iff_ne], skipIf_frame s _⟩

/-! ### BNNN -/

theorem exec_jpv0 (nnn : Addr) : exec (.jpv0 nnn) s = .next (s.setPc (offsetTarget (s.reg 0) nnn)) := rfl

/-- The target as R93 writes it, with the whole word: the mask leaves 12 bits, so PC holds all of it. -/
theorem offsetTarget_toNat_masked (b : Byte) (nnn : Addr) :
    (offsetTarget b nnn).toNat = (b.toNat + (encode (.jpv0 nnn)).toNat) &&& 0x0FFF := by
  have hword : encode (.jpv0 nnn) = 0xB#4 ++ nnn := rfl
  rw [offsetTarget, hword, BitVec.toNat_ofNat, mask12]
  omega

end Sys2Proof.Machine

open Sys2Proof Sys2Proof.Machine

/-- Settles O25: a return pops when an address is saved and raises StackUnderflow when none is. -/
theorem returnPopsAddress : Obligations.ReturnPopsAddress := by
  intro s
  refine ⟨fun h => ⟨_, exec_ret_saved s h, ?_⟩, exec_ret_empty s⟩
  exact ⟨rfl, rfl, rfl, frame_setStack_setPc s _ _ _⟩

/-- Settles O27: a call pushes when a slot is free and raises StackOverflow when none is. -/
theorem callPushesPc : Obligations.CallPushesPc := by
  intro nnn s
  refine ⟨fun h => ⟨_, exec_call_room s nnn h, addr_setWidth_toNat nnn, rfl, ?_, ?_, ?_⟩, exec_call_full s nnn⟩
  · exact Vector.getElem_set_self h
  · intro k hk
    exact Vector.getElem_set_ne h k.isLt hk.symm
  · exact frame_setStack_setPc s _ _ _

/-- Settles O29: both skips compare V[X] with NN. -/
theorem immediateSkips : Obligations.ImmediateSkips :=
  fun x nn s => ⟨⟨_, exec_sei s x nn, skipIf_beq s _ _⟩, ⟨_, exec_snei s x nn, skipIf_bne s _ _⟩⟩

/-- Settles O30: both skips compare V[X] with V[Y]. -/
theorem registerSkips : Obligations.RegisterSkips :=
  fun x y s => ⟨⟨_, exec_ser s x y, skipIf_beq s _ _⟩, ⟨_, exec_sner s x y, skipIf_bne s _ _⟩⟩

/-- Settles O31: PC takes the masked sum, and PC is all that changes. -/
theorem jumpWithOffsetMasksSum : Obligations.JumpWithOffsetMasksSum :=
  fun nnn s => ⟨_, exec_jpv0 s nnn, offsetTarget_toNat_masked _ nnn, frame_setPc s _⟩

end

section
/-! PROOFS. The register instructions without a flag (41_alu R110 to R115): what `exec` answers for each, said once as one
`setReg`, and the obligations O33 and O34 put together from that and the frames of Laws/Frames. No equation supposes
`x ≠ VF`: with X = F the result is an ordinary write to V[F]. -/

namespace Sys2Proof.Machine

variable (s : State)

/-- The whole frame of one register write. -/
theorem setReg_frames (x : Reg) (b : Byte) : RegsFrame [x] s (s.setReg x b) ∧ Frame [.regs] s (s.setReg x b) :=
  ⟨regsFrame_setReg s x b, frame_setReg s x b⟩

theorem exec_ldi (x : Reg) (nn : Byte) : exec (.ldi x nn) s = .next (s.setReg x nn) := rfl

theorem exec_addi (x : Reg) (nn : Byte) : exec (.addi x nn) s = .next (s.setReg x (s.reg x + nn)) := rfl

theorem exec_mov (x y : Reg) : exec (.mov x y) s = .next (s.setReg x (s.reg y)) := rfl

theorem exec_or (x y : Reg) : exec (.or x y) s = .next (s.setReg x (s.reg x ||| s.reg y)) := rfl

theorem exec_and (x y : Reg) : exec (.and x y) s = .next (s.setReg x (s.reg x &&& s.reg y)) := rfl

theorem exec_xor (x y : Reg) : exec (.xor x y) s = .next (s.setReg x (s.reg x ^^^ s.reg y)) := rfl

end Sys2Proof.Machine

open Sys2Proof Sys2Proof.Machine

/-- Settles O33: both are one register write; addition of bytes is addition modulo 256. -/
theorem loadAndAddImmediate : Obligations.LoadAndAddImmediate := by
  intro x nn s
  refine ⟨⟨_, exec_ldi s x nn, ?_, setReg_frames s _ _⟩, ⟨_, exec_addi s x nn, ?_, setReg_frames s _ _⟩⟩
  · exact State.reg_setReg_same s x nn
  · rw [State.reg_setReg_same, BitVec.toNat_add]

/-- Settles O34: each is one register write; the bitwise operators act on every bit by itself. -/
theorem moveAndBitwiseLogic : Obligations.MoveAndBitwiseLogic := by
  intro x y s
  refine ⟨⟨_, exec_mov s x y, ?_, setReg_frames s _ _⟩, ⟨_, exec_or s x y, fun k => ?_, setReg_frames s _ _⟩,
    ⟨_, exec_and s x y, fun k => ?_, setReg_frames s _ _⟩, ⟨_, exec_xor s x y, fun k => ?_, setReg_frames s _ _⟩⟩
  · exact State.reg_setReg_same s x (s.reg y)
  · rw [State.reg_setReg_same, BitVec.getLsbD_or]
  · rw [State.reg_setReg_same, BitVec.getLsbD_and]
  · rw [State.reg_setReg_same, BitVec.getLsbD_xor]

end

section
/-! PROOFS. The index register and the register store (42_index_and_memory R130, R132, R134): what `exec` answers for each,
said once, and the obligations O39, O41 and O44 put together from that and the frames of Laws/Frames. -/

namespace Sys2Proof.Machine

variable (s : State)

/-! ### ANNN and FX29 -/

theorem exec_lda (nnn : Addr) : exec (.lda nnn) s = .next (s.setIndex nnn) := rfl

theorem exec_fnt (x : Reg) : exec (.fnt x) s = execFnt x s := rfl

theorem exec_fnt_digit (x : Reg) (h : (s.reg x).toNat ≤ 15) :
    exec (.fnt x) s = .next (s.setIndex (BitVec.ofNat 12 ((s.reg x).toNat * Config.fontStride))) := by
  rw [exec_fnt, execFnt, if_neg (Nat.not_lt.mpr h)]

theorem exec_fnt_noDigit (x : Reg) (h : (s.reg x).toNat > 15) :
    exec (.fnt x) s = .fault (.invalidFontIndex (s.reg x)) := by
  rw [exec_fnt, execFnt, if_pos h, raise]

/-- The address of a digit's sprite fits in I. -/
theorem fontAddress_toNat (b : Byte) : (BitVec.ofNat 12 (b.toNat * Config.fontStride)).toNat = 5 * b.toNat := by
  rw [BitVec.toNat_ofNat, Config.fontStride]
  omega

/-! ### FX55 -/

/-- A checked store to a block of `n` cells at I: the error for address 0x1000 when a cell of the block lies past the end,
else every cell written (42_index_and_memory R136). -/
theorem storeCells_block {cells : List Host.Cell} {i : Addr} {n : Nat}
    (h : cells.map Prod.fst = effectiveAddresses i n) :
    storeCells cells s
      = if i.toNat + n ≤ Config.memSize then .next (s.putCells cells) else .fault (.memWriteOutOfRange Config.memSize) := by
  rw [storeCells, h, firstOutside_effectiveAddresses]
  by_cases hin : i.toNat + n ≤ Config.memSize
  · rw [if_pos hin, if_pos hin]
  · rw [if_neg hin, if_neg hin]
    rfl

theorem exec_stm (x : Reg) :
    exec (.stm x) s = if s.i.toNat + (x.val + 1) ≤ Config.memSize then .next (s.putCells (registerCells s x))
      else .fault (.memWriteOutOfRange Config.memSize) :=
  storeCells_block s (registerCells_addresses s x)

theorem exec_stm_inside (x : Reg) (h : s.i.toNat + x.val ≤ 0xFFF) :
    exec (.stm x) s = .next (s.putCells (registerCells s x)) := by
  have hfits : s.i.toNat + (x.val + 1) ≤ Config.memSize := Nat.succ_le_succ h
  rw [exec_stm, if_pos hfits]

theorem exec_stm_outside (x : Reg) (h : s.i.toNat + x.val > 0xFFF) :
    exec (.stm x) s = .fault (.memWriteOutOfRange 0x1000) := by
  have hpast : ¬ s.i.toNat + (x.val + 1) ≤ Config.memSize := Nat.not_le.mpr (Nat.succ_lt_succ h)
  rw [exec_stm, if_neg hpast, Config.memSize]

/-- The block that FX55 writes holds the registers up to V[X]. -/
theorem byteAt_putRegisterCells (x r : Reg) (h : r.val ≤ x.val) :
    (s.putCells (registerCells s x)).byteAt (s.i.toNat + r.val) = s.reg r := by
  have hnodup : ((registerCells s x).map Prod.fst).Nodup := by
    rw [registerCells_addresses]
    exact effectiveAddresses_nodup s.i (x.val + 1)
  exact State.byteAt_putCells_mem s hnodup (mem_registerCells s x r h)

/-- Below I and above I + X every byte stays. -/
theorem byteAt_putRegisterCells_other (x : Reg) {a : Nat} (h : a < s.i.toNat ∨ s.i.toNat + x.val < a) :
    (s.putCells (registerCells s x)).byteAt a = s.byteAt a := by
  refine State.byteAt_putCells_other s fun ha => ?_
  rw [registerCells_addresses, mem_effectiveAddresses] at ha
  obtain ⟨k, hk, rfl⟩ := ha
  omega

end Sys2Proof.Machine

open Sys2Proof Sys2Proof.Machine

/-- Settles O39: I is the one piece written. -/
theorem loadIndexImmediate : Obligations.LoadIndexImmediate :=
  fun nnn s => ⟨_, exec_lda s nnn, State.setIndex_i s nnn, frame_setIndex s nnn⟩

/-- Settles O41: a digit's sprite address fits in I, and a byte above 15 is no digit. -/
theorem fontIndexPointsAtSprite : Obligations.FontIndexPointsAtSprite :=
  fun x s => ⟨fun h => ⟨_, exec_fnt_digit s x h, fontAddress_toNat (s.reg x), frame_setIndex s _⟩, exec_fnt_noDigit s x⟩

/-- Settles O44: the block at I is checked as a whole before it is written. -/
theorem storeRegistersWritesBlock : Obligations.StoreRegistersWritesBlock := by
  intro x s
  refine ⟨fun h => ⟨_, exec_stm_inside s x h, ?_, ?_, ?_⟩, exec_stm_outside s x⟩
  · exact byteAt_putRegisterCells s x
  · exact fun _ => byteAt_putRegisterCells_other s x
  · exact frame_putCells s _

end

section
/-! PROOFS. The display (43_display R150): what `exec` answers for 00E0, and the obligation O48. -/

namespace Sys2Proof.Machine

theorem exec_cls (s : State) : exec .cls s = .next (s.setDisplay Display.clear) := rfl

end Sys2Proof.Machine

open Sys2Proof Sys2Proof.Machine

/-- Settles O48: the display takes the buffer of zeros, whatever it held, and is the one piece written. -/
theorem clearScreen : Obligations.ClearScreen := by
  intro s
  refine ⟨_, exec_cls s, fun x y => ?_, frame_setDisplay s Display.clear⟩
  rw [State.setDisplay_fb, Display.pixel_clear]

end

section
/-! PROOFS. The host's Load and Release (60_exceptions R202, R205): what `hostEvent` answers for each, said once, and the
obligations O19 and O22 put together from that, the cells of Laws/Events and the frames of Laws/Frames. -/

namespace Sys2Proof.Machine

variable (s : State)

/-! ### Load -/

/-- A program of 16-bit words is within the host's contract, so its length alone decides the answer. -/
theorem hostEvent_load {words : List Nat} (hw : ∀ w ∈ words, w < 0x10000) :
    hostEvent (.load words) s =
      if Config.origin + 2 * words.length > Config.memSize then eventAborted (.memWriteOutOfRange Config.memSize) s
      else eventDone ((s.putCells (programCells words)).setPc (BitVec.ofNat 13 Config.origin)) := by
  have hcontract : words.find? (fun w => decide (w ≥ 0x10000)) = none := by
    rw [List.find?_eq_none]
    intro w hmem hbig
    exact absurd (hw w hmem) (Nat.not_lt.mpr (of_decide_eq_true hbig))
  rw [hostEvent, loadEvent, hcontract]

theorem hostEvent_load_fits {words : List Nat} (hw : ∀ w ∈ words, w < 0x10000)
    (h : 0x200 + 2 * words.length ≤ 0x1000) :
    hostEvent (.load words) s = eventDone ((s.putCells (programCells words)).setPc 0x200#13) := by
  have hfits : ¬ Config.origin + 2 * words.length > Config.memSize := Nat.not_lt.mpr h
  rw [hostEvent_load s hw, if_neg hfits, Config.origin]

theorem hostEvent_load_tooLong {words : List Nat} (hw : ∀ w ∈ words, w < 0x10000)
    (h : 0x200 + 2 * words.length > 0x1000) :
    hostEvent (.load words) s = eventAborted (.memWriteOutOfRange 0x1000) s := by
  have hlong : Config.origin + 2 * words.length > Config.memSize := h
  rw [hostEvent_load s hw, if_pos hlong, Config.memSize]

/-- The two bytes of word `k`, the high one at the lower address (20_memory R46). -/
theorem byteAt_putProgramCells {words : List Nat} {k : Nat} (h : k < words.length) :
    (s.putCells (programCells words)).byteAt (0x200 + 2 * k) = highByte (BitVec.ofNat 16 words[k]) ∧
    (s.putCells (programCells words)).byteAt (0x200 + 2 * k + 1) = lowByte (BitVec.ofNat 16 words[k]) := by
  have cell {c : Host.Cell} (hc : c ∈ programCells words) :
      (s.putCells (programCells words)).byteAt c.1 = c.2 :=
    State.byteAt_putCells_mem s (programCells_nodup words) hc
  exact ⟨cell ((mem_programCells words _).mpr ⟨k, h, .inl rfl⟩), cell ((mem_programCells words _).mpr ⟨k, h, .inr rfl⟩)⟩

/-- Below the program and past its end every byte stays. -/
theorem byteAt_putProgramCells_other {words : List Nat} {a : Nat} (h : a < 0x200 ∨ 0x200 + 2 * words.length ≤ a) :
    (s.putCells (programCells words)).byteAt a = s.byteAt a := by
  refine State.byteAt_putCells_other s fun ha => ?_
  rw [programCells_addresses, List.mem_map] at ha
  obtain ⟨k, hk, rfl⟩ := ha
  rw [List.mem_range] at hk
  omega

theorem frame_putCells_setPc (cells : List Host.Cell) (p : PcWord) :
    Frame [.mem, .pc] s ((s.putCells cells).setPc p) :=
  ((frame_putCells s cells).mono (by decide)).trans ((frame_setPc _ p).mono (by decide))

/-! ### Release -/

theorem hostEvent_release : hostEvent .release s = eventDone (s.setKey none) := rfl

theorem setKey_of_key_eq {k : Option Key} (h : s.key = k) : s.setKey k = s := by
  subst h
  rfl

end Sys2Proof.Machine

open Sys2Proof Sys2Proof.Machine

/-- Settles O19: each address of the program is written once, so every cell keeps its byte to the end of the Load; the
length is checked before. -/
theorem loadPlacesWordsBigEndian : Obligations.LoadPlacesWordsBigEndian := by
  intro words s hw
  refine ⟨fun hfits => ?_, fun hlong => ?_⟩
  · rw [hostEvent_load_fits s hw hfits]
    refine ⟨rfl, rfl, fun k hk => ?_, fun a ha => ?_, frame_putCells_setPc s _ _⟩
    · obtain ⟨hhigh, hlow⟩ := byteAt_putProgramCells s hk
      obtain ⟨hdiv, hmod⟩ := bytes_of_word words[k] (hw _ (List.getElem_mem hk))
      exact ⟨(congrArg BitVec.toNat hhigh).trans hdiv, (congrArg BitVec.toNat hlow).trans hmod⟩
    · exact byteAt_putProgramCells_other s ha
  · rw [hostEvent_load_tooLong s hw hlong, eventAborted]

/-- Settles O22: the latch is the one piece written, and writing what it holds is no change. -/
theorem releaseClearsLatch : Obligations.ReleaseClearsLatch := by
  intro s
  rw [hostEvent_release]
  exact ⟨rfl, rfl, setKey_of_key_eq s⟩

end

section
/-! PROOFS. The decoder and the encoder (30_encoding R64 to R68): decoding an encoded word family by family, the one
instruction a word decodes to, the rows of the opcode table, and the reserved words; the obligations O1 to O5. -/

namespace Sys2Proof

/-! ### Decoding an encoded word -/

theorem decode_encode_sys {nnn : Addr} (h : (Instr.sys nnn).wf = true) :
    decode (encode (.sys nnn)) = .ok (.sys nnn) := by
  obtain ⟨-, hcls, hret⟩ := Laws.TableRow.sys nnn h
  have hnotCls : encNNN 0x0#4 nnn ≠ 0x00E0#16 := fun e => Instr.noConfusion (hcls e)
  have hnotRet : encNNN 0x0#4 nnn ≠ 0x00EE#16 := fun e => Instr.noConfusion (hret e)
  rw [encode, decode_family0 (fieldP_encNNN _ _), if_neg hnotCls, if_neg hnotRet, fieldNNN_encNNN]

/-- By family: one lemma of Laws/Decode says what the family answers, the rest read the fields of the word. -/
theorem decode_encode (i : Instr) (h : i.wf = true) : decode (encode i) = .ok i := by
  cases i with
  | cls | ret => rfl
  | jp nnn => rw [encode, decode_family1 (fieldP_encNNN _ _), fieldNNN_encNNN]
  | call nnn => rw [encode, decode_family2 (fieldP_encNNN _ _), fieldNNN_encNNN]
  | sei x nn => rw [encode, decode_family3 (fieldP_encXNN _ _ _), fieldX_encXNN, fieldNN_encXNN]
  | snei x nn => rw [encode, decode_family4 (fieldP_encXNN _ _ _), fieldX_encXNN, fieldNN_encXNN]
  | ser x y => rw [encode, decode_family5 (fieldP_encXYN _ _ _ _), fieldN_encXYN, fieldX_encXYN, fieldY_encXYN]; rfl
  | ldi x nn => rw [encode, decode_family6 (fieldP_encXNN _ _ _), fieldX_encXNN, fieldNN_encXNN]
  | addi x nn => rw [encode, decode_family7 (fieldP_encXNN _ _ _), fieldX_encXNN, fieldNN_encXNN]
  | mov x y | or x y | and x y | xor x y | add x y | sub x y | shr x y | subn x y | shl x y =>
    rw [encode, decode_family8 (fieldP_encXYN _ _ _ _), decode8, fieldN_encXYN, fieldX_encXYN, fieldY_encXYN]; rfl
  | sner x y => rw [encode, decode_family9 (fieldP_encXYN _ _ _ _), fieldN_encXYN, fieldX_encXYN, fieldY_encXYN]; rfl
  | lda nnn => rw [encode, decode_familyA (fieldP_encNNN _ _), fieldNNN_encNNN]
  | jpv0 nnn => rw [encode, decode_familyB (fieldP_encNNN _ _), fieldNNN_encNNN]
  | rnd x nn => rw [encode, decode_familyC (fieldP_encXNN _ _ _), fieldX_encXNN, fieldNN_encXNN]
  | drw x y n =>
    rw [encode, decode_familyD (fieldP_encXYN _ _ _ _), fieldN_encXYN, fieldX_encXYN, fieldY_encXYN,
      nibbleOf_nibbleBits]
  | skp x | sknp x => rw [encode, decode_familyE (fieldP_encXNN _ _ _), decodeE, fieldNN_encXNN, fieldX_encXNN]; rfl
  | gdt x | wkey x | sdt x | sst x | adda x | fnt x | bcd x | stm x | ldm x =>
    rw [encode, decode_familyF (fieldP_encXNN _ _ _), decodeF, fieldNN_encXNN, fieldX_encXNN]; rfl
  | sys nnn => exact decode_encode_sys h

/-! ### The word of a decoded instruction -/

/-- `i` is well-formed and `op` is its word. -/
def Denotes (op : OpWord) (i : Instr) : Prop := i.wf = true ∧ encode i = op

section
variable {op : OpWord} {i : Instr}

theorem denotes_of_decode_family0 (hP : fieldP op = 0) (h : decode op = .ok i) : Denotes op i := by
  have hword : encNNN 0x0#4 (fieldNNN op) = op := word_of_fields_NNN 0x0#4 hP
  rw [decode_family0 hP] at h
  split at h
  case isTrue hcls => cases h; exact ⟨rfl, hcls.symm⟩
  case isFalse hcls =>
    split at h
    case isTrue hret => cases h; exact ⟨rfl, hret.symm⟩
    case isFalse hret =>
      cases h
      have hE0 : fieldNNN op ≠ 0x0E0#12 := fun e => hcls (by rw [← hword, e]; rfl)
      have hEE : fieldNNN op ≠ 0x0EE#12 := fun e => hret (by rw [← hword, e]; rfl)
      exact ⟨by simp [Instr.wf, hE0, hEE], hword⟩

theorem denotes_of_decode8 (hP : fieldP op = 8) (h : decode8 op = .ok i) : Denotes op i := by
  unfold decode8 at h
  split at h
  case h_10 => cases h
  all_goals
    rename_i hN
    cases h
    exact ⟨rfl, word_of_fields_XYN 0x8#4 _ hP hN⟩

theorem denotes_of_decodeE (hP : fieldP op = 14) (h : decodeE op = .ok i) : Denotes op i := by
  unfold decodeE at h
  repeat
    split at h
    · rename_i hNN
      cases h
      exact ⟨rfl, word_of_fields_XNN 0xE#4 _ hP hNN⟩
  cases h

theorem denotes_of_decodeF (hP : fieldP op = 15) (h : decodeF op = .ok i) : Denotes op i := by
  unfold decodeF at h
  repeat
    split at h
    · rename_i hNN
      cases h
      exact ⟨rfl, word_of_fields_XNN 0xF#4 _ hP hNN⟩
  cases h

/-- A word decodes to one instruction, so what is known of the one its family names is known of every one. -/
theorem Denotes.of_decode {j : Instr} (hj : decode op = .ok j) (hw : Denotes op j)
    (h : decode op = .ok i) : Denotes op i := by
  cases hj.symm.trans h
  exact hw

theorem denotes_of_decode (h : decode op = .ok i) : Denotes op i := by
  rcases family_cases op with hP | hP | hP | hP | hP | hP | hP | hP | hP | hP | hP | hP | hP | hP | hP | hP
  · exact denotes_of_decode_family0 hP h
  · exact .of_decode (decode_family1 hP) ⟨rfl, word_of_fields_NNN 0x1#4 hP⟩ h
  · exact .of_decode (decode_family2 hP) ⟨rfl, word_of_fields_NNN 0x2#4 hP⟩ h
  · exact .of_decode (decode_family3 hP) ⟨rfl, word_of_fields_XNN 0x3#4 _ hP rfl⟩ h
  · exact .of_decode (decode_family4 hP) ⟨rfl, word_of_fields_XNN 0x4#4 _ hP rfl⟩ h
  · rw [decode_family5 hP] at h
    split at h
    case isTrue hN => cases h; exact ⟨rfl, word_of_fields_XYN 0x5#4 0x0#4 hP hN⟩
    case isFalse => cases h
  · exact .of_decode (decode_family6 hP) ⟨rfl, word_of_fields_XNN 0x6#4 _ hP rfl⟩ h
  · exact .of_decode (decode_family7 hP) ⟨rfl, word_of_fields_XNN 0x7#4 _ hP rfl⟩ h
  · exact denotes_of_decode8 hP ((decode_family8 hP).symm.trans h)
  · rw [decode_family9 hP] at h
    split at h
    case isTrue hN => cases h; exact ⟨rfl, word_of_fields_XYN 0x9#4 0x0#4 hP hN⟩
    case isFalse => cases h
  · exact .of_decode (decode_familyA hP) ⟨rfl, word_of_fields_NNN 0xA#4 hP⟩ h
  · exact .of_decode (decode_familyB hP) ⟨rfl, word_of_fields_NNN 0xB#4 hP⟩ h
  · exact .of_decode (decode_familyC hP) ⟨rfl, word_of_fields_XNN 0xC#4 _ hP rfl⟩ h
  · exact .of_decode (decode_familyD hP) ⟨rfl, word_of_fields_XYN 0xD#4 _ hP (nibbleOf_nibbleBits _).symm⟩ h
  · exact denotes_of_decodeE hP ((decode_familyE hP).symm.trans h)
  · exact denotes_of_decodeF hP ((decode_familyF hP).symm.trans h)

end

/-! ### The rows of the opcode table -/

/-- Every well-formed instruction's word is of its row: the family of Laws/PerInstr, for any instruction. -/
theorem tableRow (i : Instr) : Laws.TableRow.Statement i := by
  cases i with
  | cls => exact Laws.TableRow.cls
  | ret => exact Laws.TableRow.ret
  | jp nnn => exact Laws.TableRow.jp nnn
  | call nnn => exact Laws.TableRow.call nnn
  | sei x nn => exact Laws.TableRow.sei x nn
  | snei x nn => exact Laws.TableRow.snei x nn
  | ser x y => exact Laws.TableRow.ser x y
  | ldi x nn => exact Laws.TableRow.ldi x nn
  | addi x nn => exact Laws.TableRow.addi x nn
  | mov x y => exact Laws.TableRow.mov x y
  | or x y => exact Laws.TableRow.or x y
  | and x y => exact Laws.TableRow.and x y
  | xor x y => exact Laws.TableRow.xor x y
  | add x y => exact Laws.TableRow.add x y
  | sub x y => exact Laws.TableRow.sub x y
  | shr x y => exact Laws.TableRow.shr x y
  | subn x y => exact Laws.TableRow.subn x y
  | shl x y => exact Laws.TableRow.shl x y
  | sner x y => exact Laws.TableRow.sner x y
  | lda nnn => exact Laws.TableRow.lda nnn
  | jpv0 nnn => exact Laws.TableRow.jpv0 nnn
  | rnd x nn => exact Laws.TableRow.rnd x nn
  | drw x y n => exact Laws.TableRow.drw x y n
  | skp x => exact Laws.TableRow.skp x
  | sknp x => exact Laws.TableRow.sknp x
  | gdt x => exact Laws.TableRow.gdt x
  | wkey x => exact Laws.TableRow.wkey x
  | sdt x => exact Laws.TableRow.sdt x
  | sst x => exact Laws.TableRow.sst x
  | adda x => exact Laws.TableRow.adda x
  | fnt x => exact Laws.TableRow.fnt x
  | bcd x => exact Laws.TableRow.bcd x
  | stm x => exact Laws.TableRow.stm x
  | ldm x => exact Laws.TableRow.ldm x
  | sys nnn => exact Laws.TableRow.sys nnn

/-- Two instructions of one row of the opcode table. -/
def SameRow (i j : Instr) : Prop := rowMatch i = rowMatch j ∧ rowMask i = rowMask j

section
variable {op : OpWord}

/-- A word that matches a row of format NNN, XNN (X free) or XYN (X and Y free) is the row's encoding of its own
fields. -/
theorem word_of_mask_NNN (p : BitVec 4) (h : op &&& 0xF000#16 = encNNN p 0) : encNNN p (fieldNNN op) = op :=
  word_of_fields_NNN p ((fieldP_of_mask _ h rfl).trans (fieldP_encNNN p 0))

theorem word_of_mask_XNN (p : BitVec 4) (nn : Byte) (h : op &&& 0xF0FF#16 = encXNN p 0 nn) :
    encXNN p (fieldX op) nn = op :=
  word_of_fields_XNN p nn ((fieldP_of_mask _ h rfl).trans (fieldP_encXNN p 0 nn))
    ((fieldNN_of_mask _ h rfl).trans (fieldNN_encXNN p 0 nn))

theorem word_of_mask_XYN (p n : BitVec 4) (h : op &&& 0xF00F#16 = encXYN p 0 0 n) :
    encXYN p (fieldX op) (fieldY op) n = op :=
  word_of_fields_XYN p n ((fieldP_of_mask _ h rfl).trans (fieldP_encXYN p 0 0 n))
    ((fieldN_of_mask _ h rfl).trans (fieldN_encXYN p 0 0 n))

/-- A word with the primary nibble of a row whose operands are X and NN is the row's encoding of its own fields. -/
theorem word_of_mask_P (p : BitVec 4) (h : op &&& 0xF000#16 = encNNN p 0) : encXNN p (fieldX op) (fieldNN op) = op :=
  word_of_fields_XNN p _ ((fieldP_of_mask _ h rfl).trans (fieldP_encNNN p 0)) rfl

/-- A word that a row selects is the encoding of an instruction of that row. -/
theorem encoding_of_row (j : Instr) (h : op &&& rowMask j = rowMatch j) : ∃ i, encode i = op ∧ SameRow i j := by
  cases j with
  | cls => exact ⟨.cls, h.symm.trans (BitVec.and_allOnes), rfl, rfl⟩
  | ret => exact ⟨.ret, h.symm.trans (BitVec.and_allOnes), rfl, rfl⟩
  | jp nnn => exact ⟨.jp (fieldNNN op), word_of_mask_NNN 0x1#4 h, rfl, rfl⟩
  | call nnn => exact ⟨.call (fieldNNN op), word_of_mask_NNN 0x2#4 h, rfl, rfl⟩
  | sei x nn => exact ⟨.sei (fieldX op) (fieldNN op), word_of_mask_P 0x3#4 h, rfl, rfl⟩
  | snei x nn => exact ⟨.snei (fieldX op) (fieldNN op), word_of_mask_P 0x4#4 h, rfl, rfl⟩
  | ser x y => exact ⟨.ser (fieldX op) (fieldY op), word_of_mask_XYN 0x5#4 0x0#4 h, rfl, rfl⟩
  | ldi x nn => exact ⟨.ldi (fieldX op) (fieldNN op), word_of_mask_P 0x6#4 h, rfl, rfl⟩
  | addi x nn => exact ⟨.addi (fieldX op) (fieldNN op), word_of_mask_P 0x7#4 h, rfl, rfl⟩
  | mov x y => exact ⟨.mov (fieldX op) (fieldY op), word_of_mask_XYN 0x8#4 0x0#4 h, rfl, rfl⟩
  | or x y => exact ⟨.or (fieldX op) (fieldY op), word_of_mask_XYN 0x8#4 0x1#4 h, rfl, rfl⟩
  | and x y => exact ⟨.and (fieldX op) (fieldY op), word_of_mask_XYN 0x8#4 0x2#4 h, rfl, rfl⟩
  | xor x y => exact ⟨.xor (fieldX op) (fieldY op), word_of_mask_XYN 0x8#4 0x3#4 h, rfl, rfl⟩
  | add x y => exact ⟨.add (fieldX op) (fieldY op), word_of_mask_XYN 0x8#4 0x4#4 h, rfl, rfl⟩
  | sub x y => exact ⟨.sub (fieldX op) (fieldY op), word_of_mask_XYN 0x8#4 0x5#4 h, rfl, rfl⟩
  | shr x y => exact ⟨.shr (fieldX op) (fieldY op), word_of_mask_XYN 0x8#4 0x6#4 h, rfl, rfl⟩
  | subn x y => exact ⟨.subn (fieldX op) (fieldY op), word_of_mask_XYN 0x8#4 0x7#4 h, rfl, rfl⟩
  | shl x y => exact ⟨.shl (fieldX op) (fieldY op), word_of_mask_XYN 0x8#4 0xE#4 h, rfl, rfl⟩
  | sner x y => exact ⟨.sner (fieldX op) (fieldY op), word_of_mask_XYN 0x9#4 0x0#4 h, rfl, rfl⟩
  | lda nnn => exact ⟨.lda (fieldNNN op), word_of_mask_NNN 0xA#4 h, rfl, rfl⟩
  | jpv0 nnn => exact ⟨.jpv0 (fieldNNN op), word_of_mask_NNN 0xB#4 h, rfl, rfl⟩
  | rnd x nn => exact ⟨.rnd (fieldX op) (fieldNN op), word_of_mask_P 0xC#4 h, rfl, rfl⟩
  | drw x y n =>
    have hP : fieldP op = 0xD := (fieldP_of_mask 0xF000#16 h rfl).trans (fieldP_encNNN 0xD#4 0)
    exact ⟨.drw (fieldX op) (fieldY op) (fieldN op),
      word_of_fields_XYN 0xD#4 _ hP (nibbleOf_nibbleBits _).symm, rfl, rfl⟩
  | skp x => exact ⟨.skp (fieldX op), word_of_mask_XNN 0xE#4 0x9E#8 h, rfl, rfl⟩
  | sknp x => exact ⟨.sknp (fieldX op), word_of_mask_XNN 0xE#4 0xA1#8 h, rfl, rfl⟩
  | gdt x => exact ⟨.gdt (fieldX op), word_of_mask_XNN 0xF#4 0x07#8 h, rfl, rfl⟩
  | wkey x => exact ⟨.wkey (fieldX op), word_of_mask_XNN 0xF#4 0x0A#8 h, rfl, rfl⟩
  | sdt x => exact ⟨.sdt (fieldX op), word_of_mask_XNN 0xF#4 0x15#8 h, rfl, rfl⟩
  | sst x => exact ⟨.sst (fieldX op), word_of_mask_XNN 0xF#4 0x18#8 h, rfl, rfl⟩
  | adda x => exact ⟨.adda (fieldX op), word_of_mask_XNN 0xF#4 0x1E#8 h, rfl, rfl⟩
  | fnt x => exact ⟨.fnt (fieldX op), word_of_mask_XNN 0xF#4 0x29#8 h, rfl, rfl⟩
  | bcd x => exact ⟨.bcd (fieldX op), word_of_mask_XNN 0xF#4 0x33#8 h, rfl, rfl⟩
  | stm x => exact ⟨.stm (fieldX op), word_of_mask_XNN 0xF#4 0x55#8 h, rfl, rfl⟩
  | ldm x => exact ⟨.ldm (fieldX op), word_of_mask_XNN 0xF#4 0x65#8 h, rfl, rfl⟩
  | sys nnn => exact ⟨.sys (fieldNNN op), word_of_mask_NNN 0x0#4 h, rfl, rfl⟩

end

/-- The two words that stand for no well-formed SYS. -/
theorem encode_of_not_wf {i : Instr} (h : i.wf = false) : encode i = 0x00E0#16 ∨ encode i = 0x00EE#16 := by
  cases i
  case sys nnn =>
    have hn : nnn = 0x0E0#12 ∨ nnn = 0x0EE#12 := by
      by_contra hne
      rw [not_or] at hne
      simp [Instr.wf, hne] at h
    rcases hn with rfl | rfl
    · exact .inl rfl
    · exact .inr rfl
  all_goals exact absurd h (by simp [Instr.wf])

/-! ### Reserved words -/

/-- The table of 30_encoding R68, read off the fields P, N and NN of the word. -/
theorem reservedWord_iff (op : OpWord) : Machine.reservedWord op = true ↔
    ((fieldP op = 5 ∨ fieldP op = 9) ∧ fieldN op ≠ 0) ∨
    (fieldP op = 8 ∧ fieldN op ∈ ([8, 9, 10, 11, 12, 13, 15] : List (Fin 16))) ∨
    (fieldP op = 14 ∧ fieldNN op ∉ [0x9E#8, 0xA1#8]) ∨
    (fieldP op = 15 ∧ fieldNN op ∉ [0x07#8, 0x0A#8, 0x15#8, 0x18#8, 0x1E#8, 0x29#8, 0x33#8, 0x55#8, 0x65#8]) := by
  have hval {n : Nat} {z : Fin n} (l : List (Fin n)) : z.val ∈ l.map Fin.val ↔ z ∈ l :=
    List.mem_map_of_injective Fin.val_injective
  have hnat {b : Byte} (l : List Byte) : b.toNat ∈ l.map BitVec.toNat ↔ b ∈ l :=
    List.mem_map_of_injective (fun _ _ => BitVec.eq_of_toNat_eq)
  have hp (k : Fin 16) : fieldP op = k ↔ (fieldP op).val = k.val := Fin.ext_iff
  have hn : fieldN op ≠ 0 ↔ (fieldN op).val ≠ 0 := Fin.ext_iff.not
  rw [Machine.reservedWord, ← hnat, ← hnat, ← hval, hn, hp, hp, hp, hp, hp]
  simp only [← fieldP_val, ← fieldN_val, ← fieldNN_toNat]
  split_ifs with h5 h8 h9 hE hF
  · simp [h5]
  · simp [h8]
  · simp [h9]
  · simp [hE]
  · simp [hF]
  · simp [h5, h8, h9, hE, hF]

/-- The nibbles N that family 8 gives no row (30_encoding R68). -/
theorem mem_family8_reserved {n : Fin 16} : n ∈ ([8, 9, 10, 11, 12, 13, 15] : List (Fin 16)) ↔
    n ≠ 0 ∧ n ≠ 1 ∧ n ≠ 2 ∧ n ≠ 3 ∧ n ≠ 4 ∧ n ≠ 5 ∧ n ≠ 6 ∧ n ≠ 7 ∧ n ≠ 14 := by
  revert n; decide

section
variable {op : OpWord}

theorem decode_of_reserved (h : Machine.reservedWord op = true) : decode op = .error (.reserved op) := by
  rcases (reservedWord_iff op).mp h with ⟨hP | hP, hN⟩ | ⟨hP, hN⟩ | ⟨hP, hNN⟩ | ⟨hP, hNN⟩
  · rw [decode_family5 hP, if_neg hN]
  · rw [decode_family9 hP, if_neg hN]
  · rw [decode_family8 hP]
    rw [mem_family8_reserved] at hN
    unfold decode8
    split
    case h_10 => rfl
    all_goals
      rename_i hrow
      simp [hrow] at hN
  · simp only [List.mem_cons, List.not_mem_nil, or_false, not_or] at hNN
    simp [decode_familyE hP, decodeE, hNN]
  · simp only [List.mem_cons, List.not_mem_nil, or_false, not_or] at hNN
    simp [decode_familyF hP, decodeF, hNN]

theorem error_of_decode8 {e : DecodeError} (h : decode8 op = .error e) :
    e = .reserved op ∧ fieldN op ∈ ([8, 9, 10, 11, 12, 13, 15] : List (Fin 16)) := by
  unfold decode8 at h
  split at h
  case h_10 h0 h1 h2 h3 h4 h5 h6 h7 hE =>
    cases h
    exact ⟨rfl, mem_family8_reserved.mpr ⟨h0, h1, h2, h3, h4, h5, h6, h7, hE⟩⟩
  all_goals cases h

theorem error_of_decodeE {e : DecodeError} (h : decodeE op = .error e) :
    e = .reserved op ∧ fieldNN op ∉ [0x9E#8, 0xA1#8] := by
  unfold decodeE at h
  split_ifs at h with h1 h2
  cases h
  exact ⟨rfl, by simp [h1, h2]⟩

theorem error_of_decodeF {e : DecodeError} (h : decodeF op = .error e) :
    e = .reserved op ∧
      fieldNN op ∉ [0x07#8, 0x0A#8, 0x15#8, 0x18#8, 0x1E#8, 0x29#8, 0x33#8, 0x55#8, 0x65#8] := by
  unfold decodeF at h
  split_ifs at h with h1 h2 h3 h4 h5 h6 h7 h8 h9
  cases h
  exact ⟨rfl, by simp [h1, h2, h3, h4, h5, h6, h7, h8, h9]⟩

/-- Every error of the decoder names the word, and the word is one of the table's. -/
theorem reserved_of_decode_error {e : DecodeError} (h : decode op = .error e) :
    e = .reserved op ∧ Machine.reservedWord op = true := by
  rw [reservedWord_iff]
  rcases family_cases op with hP | hP | hP | hP | hP | hP | hP | hP | hP | hP | hP | hP | hP | hP | hP | hP
  · rw [decode_family0 hP] at h
    split_ifs at h
  · cases (decode_family1 hP).symm.trans h
  · cases (decode_family2 hP).symm.trans h
  · cases (decode_family3 hP).symm.trans h
  · cases (decode_family4 hP).symm.trans h
  · rw [decode_family5 hP] at h
    split_ifs at h with hN
    cases h
    exact ⟨rfl, .inl ⟨.inl hP, hN⟩⟩
  · cases (decode_family6 hP).symm.trans h
  · cases (decode_family7 hP).symm.trans h
  · obtain ⟨he, hN⟩ := error_of_decode8 ((decode_family8 hP).symm.trans h)
    exact ⟨he, .inr (.inl ⟨hP, hN⟩)⟩
  · rw [decode_family9 hP] at h
    split_ifs at h with hN
    cases h
    exact ⟨rfl, .inl ⟨.inr hP, hN⟩⟩
  · cases (decode_familyA hP).symm.trans h
  · cases (decode_familyB hP).symm.trans h
  · cases (decode_familyC hP).symm.trans h
  · cases (decode_familyD hP).symm.trans h
  · obtain ⟨he, hNN⟩ := error_of_decodeE ((decode_familyE hP).symm.trans h)
    exact ⟨he, .inr (.inr (.inl ⟨hP, hNN⟩))⟩
  · obtain ⟨he, hNN⟩ := error_of_decodeF ((decode_familyF hP).symm.trans h)
    exact ⟨he, .inr (.inr (.inr ⟨hP, hNN⟩))⟩

end

end Sys2Proof

open Sys2Proof Sys2Proof.Machine

/-- Settles O1, by the families of the decoder. -/
theorem decodeOfEncodeIsIdentity : Obligations.DecodeOfEncodeIsIdentity := decode_encode

/-- Settles O2, by the families of the decoder: the fields that it reads are the whole word. -/
theorem encodeOfDecodeIsIdentity : Obligations.EncodeOfDecodeIsIdentity := fun _ _ => denotes_of_decode

/-- Settles O3: a selected word is the encoding of an instruction of the row, which decodes to itself unless it is a SYS
with one of the two FIXED words. -/
theorem decodeFollowsOpcodeTable : Obligations.DecodeFollowsOpcodeTable := by
  intro op
  refine ⟨fun i hi => ?_, fun j hj => ?_⟩
  · obtain ⟨hwf, rfl⟩ := denotes_of_decode hi
    exact (tableRow i hwf).1
  · obtain ⟨i, rfl, hrow⟩ := encoding_of_row j hj
    cases hwf : i.wf with
    | true => exact ⟨i, decode_encode i hwf, .inl hrow⟩
    | false =>
      rcases encode_of_not_wf hwf with he | he
      · exact ⟨.cls, by rw [he]; rfl, .inr (.inl ⟨he, rfl⟩)⟩
      · exact ⟨.ret, by rw [he]; rfl, .inr (.inr ⟨he, rfl⟩)⟩

/-- Settles O4: the errors of the decoder stand in families 5, 8, 9, E and F alone, at the words of the table. -/
theorem reservedWordsAreRefused : Obligations.ReservedWordsAreRefused :=
  fun _ => ⟨⟨fun h => (reserved_of_decode_error h).2, decode_of_reserved⟩, fun _ h => (reserved_of_decode_error h).1⟩

/-- Settles O5: each word decodes by evaluation. -/
theorem exampleWordsDecode : Obligations.ExampleWordsDecode := ⟨rfl, rfl, rfl, rfl, rfl, rfl, rfl, rfl⟩

end

section
/-! PROOFS. The rest of the control transfers (40_cycle_and_control section 2): 1NNN, BNNN as a jump modulo the memory,
and a return straight after a call; the obligations O26, O28 and O32. -/

namespace Sys2Proof.Machine

variable (s : State)

theorem exec_sys (nnn : Addr) : exec (.sys nnn) s = .next s := rfl

theorem exec_jp (nnn : Addr) : exec (.jp nnn) s = .next (s.setPc (nnn.setWidth 13)) := rfl

/-- The next fetch after a jump to 0xFFF is refused (D6). -/
theorem step_of_pc_last {t : State} (hpc : t.pc.toNat = 0xFFF) (h : Dispatching t) :
    step t = .fault (.fetchOutOfRange 0xFFF) := by
  have hlast : t.pc = 0xFFF := BitVec.eq_of_toNat_eq hpc
  rw [step_fetch_refused t h hpc.ge, hlast]

end Sys2Proof.Machine

open Sys2Proof Sys2Proof.Machine

/-- Settles O26: PC is the one piece written, and a PC of 0xFFF is the least that a fetch refuses. -/
theorem jumpSetsPc : Obligations.JumpSetsPc := by
  intro nnn s
  have hpc : (s.setPc (nnn.setWidth 13)).pc.toNat = nnn.toNat := addr_setWidth_toNat nnn
  exact ⟨_, exec_jp s nnn, hpc, frame_setPc s _, fun hlast => step_of_pc_last (hpc.trans hlast)⟩

/-- Settles O28: the return pops the slot that the call pushed. -/
theorem returnAfterCallComesBack : Obligations.ReturnAfterCallComesBack := by
  intro nnn s hroom
  refine ⟨_, _, exec_call_room s nnn hroom, exec_ret_saved _ (Nat.succ_ne_zero _), ?_, rfl, fun k hk => ?_, ?_⟩
  · exact Vector.getElem_set_self hroom
  · exact Vector.getElem_set_ne hroom k.isLt (Nat.ne_of_gt hk)
  · exact (frame_setStack_setPc s _ _ _).trans (frame_setStack_setPc _ _ _ _)

/-- Settles O32: the masked sum is the sum modulo 4096. -/
theorem jumpWithOffsetWrapsInMemory : Obligations.JumpWithOffsetWrapsInMemory := by
  intro nnn s t h
  cases (exec_jpv0 s nnn).symm.trans h
  exact offsetTarget_toNat (s.reg 0) nnn

end

section
/-! PROOFS. The instructions with a flag and the random byte (41_alu R116 to R123, 42_index_and_memory R131): what
`exec` answers for each, said once, and the obligations O35, O36, O37, O38 and O40 put together from that, the numbers
of Laws/Flags and the two orders of writing of Laws/Alu. -/

namespace Sys2Proof.Machine

variable (s : State)

theorem exec_add (x y : Reg) :
    exec (.add x y) s = .next (writeResultThenFlag x (addWithCarry (s.reg x) (s.reg y)) s) := rfl

theorem exec_sub (x y : Reg) :
    exec (.sub x y) s = .next (writeResultThenFlag x (subWithBorrow (s.reg x) (s.reg y)) s) := rfl

theorem exec_subn (x y : Reg) :
    exec (.subn x y) s = .next (writeResultThenFlag x (subWithBorrow (s.reg y) (s.reg x)) s) := rfl

theorem exec_shr (x y : Reg) : exec (.shr x y) s = .next (writeFlagThenResult x bitOutRight shiftRight s) := rfl

theorem exec_shl (x y : Reg) : exec (.shl x y) s = .next (writeFlagThenResult x bitOutLeft shiftLeft s) := rfl

theorem exec_rnd (x : Reg) (nn : Byte) :
    exec (.rnd x nn) s = .next ((s.setRndIndex (s.rndIndex + 1)).setReg x (Config.rnd s.rndIndex &&& nn)) := rfl

theorem exec_adda (x : Reg) :
    exec (.adda x) s = .next ((s.setIndex (indexAdd s.i (s.reg x)).1).setReg VF (indexAdd s.i (s.reg x)).2) := rfl

/-- The whole frame of a result with its flag, in either order. -/
theorem writeResultThenFlag_frames (x : Reg) (r : Byte × Byte) :
    RegsFrame [x, VF] s (writeResultThenFlag x r s) ∧ Frame [.regs] s (writeResultThenFlag x r s) :=
  ⟨writeResultThenFlag_regs s x r, writeResultThenFlag_frame s x r⟩

theorem writeFlagThenResult_frames (x : Reg) (flag f : Byte → Byte) :
    RegsFrame [x, VF] s (writeFlagThenResult x flag f s) ∧ Frame [.regs] s (writeFlagThenResult x flag f s) :=
  ⟨writeFlagThenResult_regs s x flag f, writeFlagThenResult_frame s x flag f⟩

/-- The difference as an integer: 255 more on borrow (41_alu R118, R120). -/
theorem subWithBorrow_fst_int (a b : Byte) : ((subWithBorrow a b).1.toNat : Int) =
    if a.toNat < b.toNat then (a.toNat : Int) - b.toNat + 255 else (a.toNat : Int) - b.toNat := by
  rw [subWithBorrow_fst]
  by_cases h : a.toNat < b.toNat
  · rw [if_neg (Nat.not_le.mpr h), if_pos h]
    omega
  · rw [if_pos (Nat.not_lt.mp h), if_neg h]
    omega

theorem subWithBorrow_flag (a b : Byte) : (subWithBorrow a b).2 = if a.toNat < b.toNat then 0 else 1 := by
  rw [subWithBorrow_snd]
  by_cases h : a.toNat < b.toNat
  · rw [if_neg (Nat.not_le.mpr h), if_pos h]
  · rw [if_pos (Nat.not_lt.mp h), if_neg h]

/-- What 8XY5 and 8XY7 leave, the operands in their own order. -/
theorem writeDifference (x : Reg) (a b : Byte) {t : State} (ht : t = writeResultThenFlag x (subWithBorrow a b) s) :
    (x ≠ VF → ((t.reg x).toNat : Int) =
      if a.toNat < b.toNat then (a.toNat : Int) - b.toNat + 255 else (a.toNat : Int) - b.toNat) ∧
    t.reg VF = (if a.toNat < b.toNat then 0 else 1) ∧ RegsFrame [x, VF] s t ∧ Frame [.regs] s t := by
  subst ht
  refine ⟨fun hx => ?_, ?_, writeResultThenFlag_frames s x _⟩
  · rw [writeResultThenFlag_result s _ hx, subWithBorrow_fst_int]
  · rw [writeResultThenFlag_flag, subWithBorrow_flag]

/-- With X = F the bit shifted out to the right is itself shifted out (D15). -/
theorem shiftRight_bitOutRight (a : Byte) : shiftRight (bitOutRight a) = 0 := by
  apply BitVec.eq_of_toNat_eq
  rw [shiftRight_toNat, bitOutRight_toNat, Nat.mod_div_self]
  rfl

theorem shiftLeft_bitOutLeft (a : Byte) : (shiftLeft (bitOutLeft a)).toNat = 2 * (a.toNat / 128) := by
  have ha := a.isLt
  rw [shiftLeft_toNat, bitOutLeft_toNat]
  omega

theorem frame_setIndex_setReg (i : Addr) (x : Reg) (b : Byte) :
    Frame [.index, .regs] s ((s.setIndex i).setReg x b) :=
  ((frame_setIndex s i).mono (by decide)).trans ((frame_setReg _ x b).mono (by decide))

theorem frame_setRndIndex_setReg (n : Nat) (x : Reg) (b : Byte) :
    Frame [.regs, .rnd] s ((s.setRndIndex n).setReg x b) :=
  ((frame_setRndIndex s n).mono (by decide)).trans ((frame_setReg _ x b).mono (by decide))

/-- A byte under a mask has no bit outside it. -/
theorem and_and_not_self (r nn : Byte) : r &&& nn &&& ~~~nn = 0 := by
  rw [BitVec.and_assoc, BitVec.and_not_self]
  exact BitVec.and_zero

end Sys2Proof.Machine

open Sys2Proof Sys2Proof.Machine

/-- Settles O35: the sum goes to V[X] first and the carry to VF after it, so with X = F the carry stands. -/
theorem addSetsCarry : Obligations.AddSetsCarry := by
  intro x y s
  refine ⟨_, exec_add s x y, fun hx => ?_, ?_, writeResultThenFlag_frames s x _⟩
  · rw [writeResultThenFlag_result s _ hx, addWithCarry_fst]
  · rw [writeResultThenFlag_flag, addWithCarry_snd]

/-- Settles O36: the two subtractions are one, with the operands swapped. -/
theorem subtractWrapsBy255 : Obligations.SubtractWrapsBy255 :=
  fun x y s => ⟨⟨_, exec_sub s x y, writeDifference s x _ _ rfl⟩, ⟨_, exec_subn s x y, writeDifference s x _ _ rfl⟩⟩

/-- Settles O37: the flag is written first, so with X = F it is the flag that is shifted. -/
theorem shiftsOfVx : Obligations.ShiftsOfVx := by
  intro x y s
  refine ⟨⟨_, exec_shr s x y, fun hx => ?_, fun hx => ?_, writeFlagThenResult_frames s x _ _⟩,
    ⟨_, exec_shl s x y, fun hx => ?_, fun hx => ?_, writeFlagThenResult_frames s x _ _⟩⟩
  · obtain ⟨hres, hflag⟩ := writeFlagThenResult_apart s bitOutRight shiftRight hx
    rw [hres, hflag, shiftRight_toNat, bitOutRight_toNat]
    exact ⟨rfl, rfl⟩
  · subst hx
    rw [writeFlagThenResult_vf, shiftRight_bitOutRight]
  · obtain ⟨hres, hflag⟩ := writeFlagThenResult_apart s bitOutLeft shiftLeft hx
    rw [hres, hflag, shiftLeft_toNat, bitOutLeft_toNat]
    exact ⟨rfl, rfl⟩
  · subst hx
    rw [writeFlagThenResult_vf, shiftLeft_bitOutLeft]

/-- Settles O38: one draw, masked, is all that is written; nothing is said of the draw itself. -/
theorem randomByteUnderMask : Obligations.RandomByteUnderMask := by
  intro x nn s
  refine ⟨_, exec_rnd s x nn, ?_, ?_, rfl, ?_, frame_setRndIndex_setReg s _ x _⟩
  · rw [State.reg_setReg_same, and_and_not_self]
  · rw [State.reg_setReg_same]
  · exact regsFrame_setReg (s.setRndIndex (s.rndIndex + 1)) x _

/-- Settles O40: the addend is read before the flag is written, so with X = F it is the old VF. -/
theorem addToIndexSetsOverflow : Obligations.AddToIndexSetsOverflow := by
  intro x s
  refine ⟨_, exec_adda s x, indexAdd_fst s.i (s.reg x), ?_, ?_, frame_setIndex_setReg s _ VF _⟩
  · rw [State.reg_setReg_same, indexAdd_snd]
  · exact regsFrame_setReg (s.setIndex (indexAdd s.i (s.reg x)).1) VF _

end

section
/-! PROOFS. The transfers between registers and memory (42_index_and_memory R133 to R137): the digits of FX33, the loads
of FX65, what FX55 leaves for a later FX65 and for the next fetch; the obligations O42, O43, O45, O46 and O47. -/

namespace Sys2Proof.Machine

variable (s : State)

/-! ### FX33 -/

theorem exec_bcd (x : Reg) : exec (.bcd x) s = storeCells (bcdCells s.params.bcdZero s.i (s.reg x)) s := rfl

/-- The cells of FX33: hundreds, tens and ones, each when it exists. -/
theorem mem_bcdCells (z : BcdZero) (i : Addr) (b : Byte) (c : Host.Cell) : c ∈ bcdCells z i b ↔
    (b.toNat ≥ 100 ∧ c = (i.toNat, BitVec.ofNat 8 (b.toNat / 100))) ∨
    (b.toNat ≥ 10 ∧ c = (i.toNat + 1, BitVec.ofNat 8 (b.toNat / 10 % 10))) ∨
    ((b.toNat ≥ 1 ∨ z = .oneDigit) ∧ c = (i.toNat + 2, BitVec.ofNat 8 (b.toNat % 10))) := by
  rw [bcdCells_eq, List.mem_append, List.mem_append, or_assoc]
  simp only [List.mem_ite_nil_right, List.mem_singleton]

theorem bcdCells_nodup (z : BcdZero) (i : Addr) (b : Byte) : ((bcdCells z i b).map Prod.fst).Nodup := by
  rw [bcdCells_eq]
  split_ifs <;> simp

/-- A digit fits in a byte. -/
theorem digit_toNat (b : Byte) {n : Nat} (h : n ≤ b.toNat) : (BitVec.ofNat 8 n).toNat = n := by
  rw [BitVec.toNat_ofNat, Nat.mod_eq_of_lt (h.trans_lt b.isLt)]

/-- The addresses of FX33, rising. -/
theorem bcdCells_addresses {z : BcdZero} {b : Byte} (i : Addr) (hone : b.toNat ≥ 1 ∨ z = .oneDigit) :
    (bcdCells z i b).map Prod.fst =
      (if b.toNat ≥ 100 then [i.toNat] else []) ++ (if b.toNat ≥ 10 then [i.toNat + 1] else []) ++ [i.toNat + 2] := by
  rw [bcdCells_eq, if_pos hone]
  split_ifs <;> rfl

/-- The lowest address past the end among the cells of FX33 (D14): I + 2 is past it for an I of 0xFFE or 0xFFF alone. -/
theorem firstOutside_bcdCells {z : BcdZero} {i : Addr} {b : Byte} (hone : b.toNat ≥ 1 ∨ z = .oneDigit)
    (hend : i.toNat + 2 > 0xFFF) : firstOutside ((bcdCells z i b).map Prod.fst)
      = some (if b.toNat ≥ 10 then 0x1000 else i.toNat + 2) := by
  have hi : i.toNat = 0xFFE ∨ i.toNat = 0xFFF := by
    have := i.isLt
    omega
  rw [bcdCells_addresses i hone]
  rcases hi with hi | hi
  · rw [hi]
    split_ifs <;> rfl
  · rw [hi]
    split_ifs <;> rfl

/-- Every cell is at most the one at I + 2, which is written whenever another is. -/
theorem bcdCells_inside {z : BcdZero} {i : Addr} {b : Byte}
    (h : b.toNat ≥ 1 ∨ z = .oneDigit → i.toNat + 2 ≤ 0xFFF) : ∀ c ∈ bcdCells z i b, c.1 < Config.memSize := by
  intro c hc
  obtain ⟨hone, hle⟩ : (b.toNat ≥ 1 ∨ z = .oneDigit) ∧ c.1 ≤ i.toNat + 2 := by
    rcases (mem_bcdCells z i b c).mp hc with ⟨hv, rfl⟩ | ⟨hv, rfl⟩ | ⟨hv, rfl⟩
    · exact ⟨.inl (le_trans (by decide) hv), by simp⟩
    · exact ⟨.inl (le_trans (by decide) hv), by simp⟩
    · exact ⟨hv, le_rfl⟩
  exact Nat.lt_succ_of_le (hle.trans (h hone))

/-! ### FX65 -/

theorem exec_ldm (x : Reg) :
    exec (.ldm x) s = if s.i.toNat + (x.val + 1) ≤ Config.memSize then .next (loadRegisters s x)
      else .fault (.memReadOutOfRange Config.memSize) :=
  checkedRead_block s.i (x.val + 1) _

theorem exec_ldm_inside (x : Reg) (h : s.i.toNat + x.val ≤ 0xFFF) : exec (.ldm x) s = .next (loadRegisters s x) := by
  have hfits : s.i.toNat + (x.val + 1) ≤ Config.memSize := Nat.succ_le_succ h
  rw [exec_ldm, if_pos hfits]

theorem exec_ldm_outside (x : Reg) (h : s.i.toNat + x.val > 0xFFF) :
    exec (.ldm x) s = .fault (.memReadOutOfRange 0x1000) := by
  have hpast : ¬ s.i.toNat + (x.val + 1) ≤ Config.memSize := Nat.not_le.mpr (Nat.succ_lt_succ h)
  rw [exec_ldm, if_neg hpast, Config.memSize]

theorem frame_loadRegisters (x : Reg) : Frame [.regs] s (loadRegisters s x) := by
  rw [loadRegisters_frame]
  exact frame_v s _

/-! ### After FX55 -/

/-- FX55 completes only with its block inside memory, and leaves the block written. -/
theorem exec_stm_next {x : Reg} {t : State} (h : exec (.stm x) s = .next t) :
    s.i.toNat + x.val ≤ 0xFFF ∧ t = s.putCells (registerCells s x) := by
  rcases Nat.lt_or_ge 0xFFF (s.i.toNat + x.val) with hpast | hin
  · cases (exec_stm_outside s x hpast).symm.trans h
  · cases (exec_stm_inside s x hin).symm.trans h
    exact ⟨hin, rfl⟩

end Sys2Proof.Machine

open Sys2Proof Sys2Proof.Machine

/-- Settles O42: the cells are those of the digits that exist, each address once and none above I + 2. -/
theorem bcdStoresExistingDigits : Obligations.BcdStoresExistingDigits := by
  intro x s v one hin
  have hcell {c : Host.Cell} := mem_bcdCells s.params.bcdZero s.i (s.reg x) c
  have hread {c : Host.Cell} (hc : c ∈ bcdCells s.params.bcdZero s.i (s.reg x)) :
      (s.putCells (bcdCells s.params.bcdZero s.i (s.reg x))).byteAt c.1 = c.2 :=
    State.byteAt_putCells_mem s (bcdCells_nodup _ _ _) hc
  refine ⟨_, (exec_bcd s x).trans (storeCells_inside s (bcdCells_inside hin)), fun h => ?_, fun h => ?_, fun h => ?_,
    fun a h2 h1 h0 => ?_, frame_putCells s _⟩
  · rw [hread (hcell.mpr (.inr (.inr ⟨h, rfl⟩)))]
    exact digit_toNat (s.reg x) (Nat.mod_le _ _)
  · rw [hread (hcell.mpr (.inr (.inl ⟨h, rfl⟩)))]
    exact digit_toNat (s.reg x) ((Nat.mod_le _ _).trans (Nat.div_le_self _ _))
  · rw [hread (hcell.mpr (.inl ⟨h, rfl⟩))]
    exact digit_toNat (s.reg x) (Nat.div_le_self _ _)
  · refine State.byteAt_putCells_other s fun ha => ?_
    obtain ⟨c, hc, rfl⟩ := List.mem_map.mp ha
    rcases hcell.mp hc with ⟨hv, rfl⟩ | ⟨hv, rfl⟩ | ⟨hv, rfl⟩
    · exact h0 ⟨rfl, hv⟩
    · exact h1 ⟨rfl, hv⟩
    · exact h2 ⟨rfl, hv⟩

/-- Settles O43: every cell is checked before the first is written, and the lowest one past the end is named. -/
theorem bcdPastEndRaises : Obligations.BcdPastEndRaises := by
  intro x s hone hend
  rw [exec_bcd, storeCells, firstOutside_bcdCells hone hend]
  rfl

/-- Settles O45: the block at I is checked as a whole before a register is written. -/
theorem loadRegistersReadsBlock : Obligations.LoadRegistersReadsBlock := by
  intro x s
  refine ⟨fun h => ⟨_, exec_ldm_inside s x h, fun r hr => ?_, fun r hr => ?_, frame_loadRegisters s x⟩,
    exec_ldm_outside s x⟩
  · rw [loadRegisters_reg, if_pos hr]
  · rw [loadRegisters_reg, if_neg (Nat.not_le.mpr hr)]

/-- Settles O46: a store that completes has its block inside memory, so the load with the same I and X completes. -/
theorem storeThenLoadRestoresRegisters : Obligations.StoreThenLoadRestoresRegisters := by
  intro x s t u hst hi hmem
  obtain ⟨hin, rfl⟩ := exec_stm_next s hst
  have hui : u.i = s.i := hi
  refine ⟨_, exec_ldm_inside u x (hui ▸ hin), fun r hr => ?_⟩
  rw [loadRegisters_reg, if_pos hr, hmem, hui, byteAt_putRegisterCells s x r hr]

/-- Settles O47: the two bytes that the fetch reads are two of the block's. -/
theorem storedWordIsFetchedNext : Obligations.StoredWordIsFetchedNext := by
  intro x s t k hk hst hpc
  obtain ⟨-, rfl⟩ := exec_stm_next s hst
  rw [nextWord, wordOfBytes, hpc]
  exact congrArg₂ (· ++ ·) (byteAt_putRegisterCells s x ⟨k, by omega⟩ (Nat.le_of_succ_le hk))
    (byteAt_putRegisterCells s x ⟨k + 1, by omega⟩ hk)

end

section
/-! PROOFS. DXYN (43_display R151 to R153): what `exec` answers, said once, and the obligations O49, O50 and O51 put
together from the sprite laws of Laws/Sprites. -/

namespace Sys2Proof.Machine

variable (s : State)

/-- The display after DXYN: the N rows at I put on it at (V[X], V[Y]). -/
def drawnDisplay (x y : Reg) (n : Fin 16) : Display :=
  Display.xorRows s.params.drawEdge (s.reg x).toNat (s.reg y).toNat (spriteRows s n.val) s.fb

theorem exec_drw (x y : Reg) (n : Fin 16) :
    exec (.drw x y n) s = if s.i.toNat + n.val ≤ Config.memSize then .next (s.setDisplay (drawnDisplay s x y n))
      else .fault (.memReadOutOfRange Config.memSize) :=
  checkedRead_block s.i n.val _

theorem exec_drw_next {x y : Reg} {n : Fin 16} {t : State} (h : exec (.drw x y n) s = .next t) :
    t = s.setDisplay (drawnDisplay s x y n) := by
  rw [exec_drw] at h
  split at h
  case isTrue => cases h; rfl
  case isFalse => cases h

theorem pixel_drawnDisplay (x y : Reg) (n : Fin 16) (px : Fin 64) (py : Fin 32) :
    Display.pixel (drawnDisplay s x y n) px py = (Display.pixel s.fb px py ^^
      spriteBit s.params.drawEdge (s.reg x).toNat (s.reg y).toNat n.val (fun r => s.byteAt (s.i.toNat + r)) px py) := by
  have hn : n.val ≤ 32 := by omega
  rw [drawnDisplay, spriteRows_eq, Display.pixel_xorRows _ _ _ _ _ hn]

/-- The second of two equal draws puts the same bit on every pixel as the first. -/
theorem drawnDisplay_twice (x y : Reg) (n : Fin 16) :
    drawnDisplay (s.setDisplay (drawnDisplay s x y n)) x y n = s.fb := by
  refine Display.ext_pixel fun px py => ?_
  rw [pixel_drawnDisplay, State.setDisplay_fb, pixel_drawnDisplay]
  exact (Bool.xor_assoc _ _ _).trans ((congrArg _ (Bool.xor_self _)).trans (Bool.xor_false _))

end Sys2Proof.Machine

open Sys2Proof Sys2Proof.Machine

/-- Settles O49: every pixel is XORed with the sprite's bit for it, and the display is the one piece written. -/
theorem drawXorsSprite : Obligations.DrawXorsSprite := by
  intro x y n s hin
  exact ⟨_, (exec_drw s x y n).trans (if_pos hin), pixel_drawnDisplay s x y n, frame_setDisplay s _⟩

/-- Settles O50: the rows are checked as a whole before the first is drawn. -/
theorem drawPastEndRaises : Obligations.DrawPastEndRaises :=
  fun x y n s hpast => (exec_drw s x y n).trans (if_neg (Nat.not_le.mpr hpast))

/-- Settles O51: XOR with the same sprite is its own inverse, and the display is all that a draw writes. -/
theorem drawTwiceRestoresScreen : Obligations.DrawTwiceRestoresScreen := by
  intro x y n s t u hst htu
  obtain rfl := exec_drw_next s hst
  obtain rfl := exec_drw_next _ htu
  rw [drawnDisplay_twice]
  rfl

end

section
/-! PROOFS. The key and timer instructions (44_keypad_and_timers R160 to R166): what `exec` answers for each, said once,
and the obligations O52, O54 and O55. -/

namespace Sys2Proof.Machine

variable (s : State)

theorem exec_skp (x : Reg) : exec (.skp x) s = .next (skipIf (latchEquals s.key (s.reg x)) s) := rfl

theorem exec_sknp (x : Reg) : exec (.sknp x) s = .next (skipIf (!latchEquals s.key (s.reg x)) s) := rfl

theorem exec_wkey (x : Reg) : exec (.wkey x) s = .next (s.setWait true) := rfl

theorem exec_gdt (x : Reg) : exec (.gdt x) s = .next (s.setReg x (timerByte s.dt)) := rfl

theorem exec_sdt (x : Reg) : exec (.sdt x) s = .next (s.setDt ((s.reg x).toNat : Int)) := rfl

theorem exec_sst (x : Reg) : exec (.sst x) s = .next (s.setSt ((s.reg x).toNat : Int)) := rfl

/-- No key, or another key than the byte (D28). -/
theorem latchEquals_eq_false {key : Option Key} {b : Byte}
    (h : key = none ∨ ∃ k, key = some k ∧ k.val ≠ b.toNat) : latchEquals key b = false := by
  rcases h with rfl | ⟨k, rfl, hk⟩
  · rfl
  · exact beq_false_of_ne hk

end Sys2Proof.Machine

open Sys2Proof Sys2Proof.Machine

/-- Settles O52: both skips test the latch against the whole byte. -/
theorem keySkips : Obligations.KeySkips := by
  intro x s
  refine ⟨⟨_, exec_skp s x, skipIf_frame s _, fun h => ?_, fun h => ?_⟩,
    ⟨_, exec_sknp s x, skipIf_frame s _, fun h => ?_, fun h => ?_⟩⟩
  · rw [(latchEquals_iff _ _).mpr h]; rfl
  · rw [latchEquals_eq_false h]; rfl
  · rw [(latchEquals_iff _ _).mpr h]; rfl
  · rw [latchEquals_eq_false h]; rfl

/-- Settles O54: the byte is the timer modulo 256, which in 0..255 is the timer. -/
theorem readDelayTimer : Obligations.ReadDelayTimer := by
  intro x s
  have hmod : (((s.setReg x (timerByte s.dt)).reg x).toNat : Int) = s.dt % 256 := by
    rw [State.reg_setReg_same, timerByte_toNat]
  exact ⟨_, exec_gdt s x, hmod, fun h0 h255 => hmod.trans (Int.emod_eq_of_lt h0 (Int.lt_add_one_of_le h255)),
    setReg_frames s x _⟩

/-- Settles O55: the timer takes V[X], and step 1 of the next cycle lowers what it then holds. -/
theorem setTimers : Obligations.SetTimers := by
  intro x s
  refine ⟨⟨_, exec_sdt s x, rfl, frame_setDt s _, fun h => ?_, fun n h => ?_⟩,
    ⟨_, exec_sst s x, rfl, frame_setSt s _, fun h => ?_, fun n h => ?_⟩⟩
  · rw [beginCycle_eq, h]; rfl
  · rw [beginCycle_eq, h]; rfl
  · rw [beginCycle_eq, h]; rfl
  · rw [beginCycle_eq, h]; rfl

end

section
/-! PROOFS. What every instruction can end in (files 40 to 44, 60_exceptions R181): one theorem over the 35 instructions
says of each what it leaves unchanged when it completes, which faults it can raise, and that it is not refused. The
obligations O56, O57, O58 and O59 rest on it. -/

namespace Sys2Proof.Machine

/-! ### Outcomes -/

/-- The outcome is a next state of which `Q` holds or a fault of which `E` holds: nothing is refused. -/
def Ends (Q : State → Prop) (E : Fault → Prop) : Result → Prop
  | .next t => Q t
  | .fault e => E e
  | .refused _ => False

section
variable {Q : State → Prop} {E : Fault → Prop} {r : Result}

theorem Ends.next {t : State} (h : Ends Q E r) (hr : r = .next t) : Q t := by
  subst hr; exact h

theorem Ends.fault {e : Fault} (h : Ends Q E r) (hr : r = .fault e) : E e := by
  subst hr; exact h

theorem Ends.not_refused {ρ : Refusal} (h : Ends Q E r) : r ≠ .refused ρ := by
  rintro rfl; exact h

/-- An outcome that a check decides. -/
theorem Ends.ite {c : Prop} [Decidable c] {t : State} {e : Fault} (hQ : c → Q t) (hE : ¬ c → E e) :
    Ends Q E (if c then .next t else .fault e) := by
  split
  case isTrue hc => exact hQ hc
  case isFalse hc => exact hE hc

end

/-! ### What an instruction leaves unchanged -/

/-- The pieces, registers and bytes that an instruction's rule does not write are unchanged. -/
structure KeepsFrame (i : Instr) (s t : State) : Prop where
  parts : Frame (writesParts i) s t
  regs : RegsFrame (writesRegs i) s t
  bytes : BytesFrame (storesTo s i) s t

section
variable {i : Instr} {s t : State}

/-- An instruction that writes registers and no memory. -/
theorem KeepsFrame.of_regs (hparts : Frame (writesParts i) s t) (hregs : RegsFrame (writesRegs i) s t)
    (hmem : .mem ∉ writesParts i := by simp [writesParts]) : KeepsFrame i s t :=
  ⟨hparts, hregs, fun a _ => hparts .mem hmem a⟩

/-- An instruction that writes memory and no register. -/
theorem KeepsFrame.of_bytes (hparts : Frame (writesParts i) s t) (hbytes : BytesFrame (storesTo s i) s t)
    (hregs : .regs ∉ writesParts i := by simp [writesParts]) : KeepsFrame i s t :=
  ⟨hparts, fun r _ => hparts .regs hregs r, hbytes⟩

/-- An instruction that writes neither: the frame of its pieces says it all. -/
theorem KeepsFrame.of_parts (hparts : Frame (writesParts i) s t)
    (hregs : .regs ∉ writesParts i := by simp [writesParts])
    (hmem : .mem ∉ writesParts i := by simp [writesParts]) : KeepsFrame i s t :=
  .of_regs hparts (fun r _ => hparts .regs hregs r) hmem

end

variable (s : State)

theorem regsFrame_loadRegisters (x : Reg) : RegsFrame (writesRegs (.ldm x)) s (loadRegisters s x) := by
  intro r hr
  have hgt : ¬ r.val ≤ x.val := by simpa [writesRegs] using hr
  rw [loadRegisters_reg, if_neg hgt]

/-- The whole of what an instruction can do, said once: its frame when it completes, else an error of its own. -/
theorem exec_ends (i : Instr) : Ends (KeepsFrame i s) (mayRaise i) (exec i s) := by
  cases i with
  | cls => exact KeepsFrame.of_parts (frame_setDisplay s _)
  | ret =>
    by_cases h : s.sp.val = 0
    · rw [exec_ret_empty s h]; trivial
    · rw [exec_ret_saved s h]; exact KeepsFrame.of_parts (frame_setStack_setPc s _ _ _)
  | jp nnn => exact KeepsFrame.of_parts (frame_setPc s _)
  | call nnn =>
    by_cases h : s.sp.val < 16
    · rw [exec_call_room s nnn h]; exact KeepsFrame.of_parts (frame_setStack_setPc s _ _ _)
    · rw [exec_call_full s nnn (by omega)]; trivial
  | sei x nn | snei x nn => exact KeepsFrame.of_parts (skipIf_frame s _)
  | ser x y | sner x y => exact KeepsFrame.of_parts (skipIf_frame s _)
  | ldi x nn | addi x nn => exact KeepsFrame.of_regs (frame_setReg s _ _) (regsFrame_setReg s _ _)
  | mov x y | or x y | and x y | xor x y => exact KeepsFrame.of_regs (frame_setReg s _ _) (regsFrame_setReg s _ _)
  | add x y | sub x y | subn x y =>
    exact KeepsFrame.of_regs (writeResultThenFlag_frame s _ _) (writeResultThenFlag_regs s _ _)
  | shr x y | shl x y =>
    exact KeepsFrame.of_regs (writeFlagThenResult_frame s _ _ _) (writeFlagThenResult_regs s _ _ _)
  | lda nnn => exact KeepsFrame.of_parts (frame_setIndex s _)
  | jpv0 nnn => exact KeepsFrame.of_parts (frame_setPc s _)
  | rnd x nn => exact KeepsFrame.of_regs (frame_setRndIndex_setReg s _ _ _) (regsFrame_setReg (s.setRndIndex _) _ _)
  | drw x y n =>
    rw [exec_drw]
    exact .ite (fun _ => .of_parts (frame_setDisplay s _)) (fun _ => rfl)
  | skp x | sknp x => exact KeepsFrame.of_parts (skipIf_frame s _)
  | gdt x => exact KeepsFrame.of_regs (frame_setReg s _ _) (regsFrame_setReg s _ _)
  | wkey x => exact KeepsFrame.of_parts (frame_setWait s _)
  | sdt x => exact KeepsFrame.of_parts (frame_setDt s _)
  | sst x => exact KeepsFrame.of_parts (frame_setSt s _)
  | adda x => exact KeepsFrame.of_regs (frame_setIndex_setReg s _ _ _) (regsFrame_setReg (s.setIndex _) _ _)
  | fnt x =>
    by_cases h : (s.reg x).toNat ≤ 15
    · rw [exec_fnt_digit s x h]; exact KeepsFrame.of_parts (frame_setIndex s _)
    · rw [exec_fnt_noDigit s x (Nat.not_le.mp h)]; exact Nat.not_le.mp h
  | bcd x =>
    rw [exec_bcd]
    rcases storeCells_cases s (bcdCells s.params.bcdZero s.i (s.reg x)) with ⟨hdone, -⟩ | ⟨a, hfault, -, -, ha⟩
    · rw [hdone]; exact KeepsFrame.of_bytes (frame_putCells s _) (bytesFrame_putCells s _)
    · rw [hfault]; exact ha
  | stm x =>
    rw [exec_stm]
    exact .ite (fun _ => .of_bytes (frame_putCells s _) (bytesFrame_putCells s _)) (fun _ => rfl)
  | ldm x =>
    rw [exec_ldm]
    exact .ite (fun _ => .of_regs (frame_loadRegisters s x) (regsFrame_loadRegisters s x)) (fun _ => rfl)
  | sys nnn => exact KeepsFrame.of_parts (Frame.refl _ s)

/-- No step is refused: a word that decodes is dispatched to an instruction, which is not, and the rest are faults. -/
theorem step_not_refused (ρ : Refusal) : step s ≠ .refused ρ := by
  rcases cycle_cases s with h | ⟨h, hpc⟩ | ⟨h, hpc⟩
  · rw [step_waiting s h]; nofun
  · rw [step_fetch_refused s h hpc]; nofun
  · rw [step_dispatch s h hpc, dispatchWord]
    cases decode (nextWord s) with
    | ok i => exact (exec_ends _ i).not_refused
    | error e => nofun

/-! ### The flag (10_state R13) -/

/-- What the six flag writers leave in VF, apart from a shift of VF itself; for the others, VF. -/
def flagOf : Instr → Byte
  | .add x y => (addWithCarry (s.reg x) (s.reg y)).2
  | .sub x y => (subWithBorrow (s.reg x) (s.reg y)).2
  | .subn x y => (subWithBorrow (s.reg y) (s.reg x)).2
  | .shr x _ => bitOutRight (s.reg x)
  | .shl x _ => bitOutLeft (s.reg x)
  | .adda x => (indexAdd s.i (s.reg x)).2
  | _ => s.reg VF

variable {s}

theorem reg_VF_of_exec {i : Instr} {t : State} (h : exec i s = .next t) (hw : writesFlag i = true)
    (hshift : ∀ y, i ≠ .shr VF y ∧ i ≠ .shl VF y) : t.reg VF = flagOf s i := by
  cases i
  case add x y | sub x y | subn x y => cases h; exact writeResultThenFlag_flag s x _
  case shr x y =>
    have hx : x ≠ VF := by rintro rfl; exact (hshift y).1 rfl
    cases h; exact (writeFlagThenResult_apart s _ _ hx).2
  case shl x y =>
    have hx : x ≠ VF := by rintro rfl; exact (hshift y).2 rfl
    cases h; exact (writeFlagThenResult_apart s _ _ hx).2
  case adda x => cases h; exact State.reg_setReg_same _ VF _
  all_goals cases hw

/-- A byte below 2 is 0 or 1. -/
theorem eq_zero_or_one_of_toNat_lt {b : Byte} (h : b.toNat < 2) : b = 0 ∨ b = 1 := by
  revert h; revert b; decide

theorem flagOf_bit {i : Instr} (hw : writesFlag i = true) : flagOf s i = 0 ∨ flagOf s i = 1 := by
  cases i
  case add x y => rw [flagOf, addWithCarry_snd]; split <;> simp
  case sub x y | subn x y => rw [flagOf, subWithBorrow_snd]; split <;> simp
  case shr x y =>
    refine eq_zero_or_one_of_toNat_lt ?_
    rw [flagOf, bitOutRight_toNat]; omega
  case shl x y =>
    have hx := (s.reg x).isLt
    refine eq_zero_or_one_of_toNat_lt ?_
    rw [flagOf, bitOutLeft_toNat]; omega
  case adda x => rw [flagOf, indexAdd_snd]; split <;> simp
  all_goals cases hw

/-- The flag is computed from the operands and I alone. -/
theorem flagOf_setReg_VF {i : Instr} (b : Byte) (hw : writesFlag i = true)
    (hxy : ∀ x y, (i = .add x y ∨ i = .sub x y ∨ i = .subn x y) → x ≠ VF ∧ y ≠ VF)
    (hx : ∀ x y, (i = .shr x y ∨ i = .shl x y ∨ i = .adda x) → x ≠ VF) :
    flagOf (s.setReg VF b) i = flagOf s i := by
  have hreg {r : Reg} (hr : r ≠ VF) : (s.setReg VF b).reg r = s.reg r := State.reg_setReg_other s b hr
  cases i
  case add x y | sub x y | subn x y =>
    obtain ⟨h1, h2⟩ := hxy x y (by simp)
    rw [flagOf, flagOf, hreg h1, hreg h2]
  case shr x y | shl x y => rw [flagOf, flagOf, hreg (hx x y (by simp))]
  case adda x => rw [flagOf, flagOf, hreg (hx x 0 (by simp)), State.setReg_i]
  all_goals cases hw

end Sys2Proof.Machine

open Sys2Proof Sys2Proof.Machine

/-- Settles O56: the frame part of what every instruction can end in. -/
theorem everyInstructionKeepsItsFrame : Obligations.EveryInstructionKeepsItsFrame := by
  intro i s t h
  obtain ⟨hparts, hregs, hbytes⟩ := (exec_ends s i).next h
  exact ⟨hparts, hregs, hbytes⟩

/-- Settles O57: VF is outside the frame of the other instructions; the six leave a bit computed from their operands. -/
theorem sixInstructionsWriteFlag : Obligations.SixInstructionsWriteFlag := by
  intro i s t h
  refine ⟨fun _ hVF => ((exec_ends s i).next h).regs VF hVF, fun hw hshift => ?_, fun hw hxy hx b u hu => ?_⟩
  · rw [reg_VF_of_exec h hw hshift]
    exact flagOf_bit hw
  · have hshift : ∀ y, i ≠ .shr VF y ∧ i ≠ .shl VF y :=
      fun y => ⟨fun e => hx VF y (.inl e) rfl, fun e => hx VF y (.inr (.inl e)) rfl⟩
    rw [reg_VF_of_exec hu hw hshift, reg_VF_of_exec h hw hshift, flagOf_setReg_VF b hw hxy hx]

/-- Settles O58: the fault part of what every instruction can end in. -/
theorem errorsOnlyWhereListed : Obligations.ErrorsOnlyWhereListed := fun i s _ h => (exec_ends s i).fault h

/-- Settles O59: no instruction ends in a refusal, and a step is a wait, a fault or an instruction. -/
theorem nothingIsRefused : Obligations.NothingIsRefused :=
  ⟨fun i s _ => (exec_ends s i).not_refused, step_not_refused⟩

end

section
/-! PROOFS. What no instruction reads (10_state R23, R24, R26): the sound timer, the display and the flag WAIT; the
obligation O60. -/

namespace Sys2Proof.Machine

/-- The pieces that O60 speaks of. -/
def unseen : List Part := [.st, .display, .wait]

/-- The state with these pieces replaced. -/
def State.withUnseen (s : State) (z : Int) (f : Display) (w : Bool) : State := ((s.setSt z).setDisplay f).setWait w

/-- Two outcomes are alike: next states that differ in the unseen pieces at most, or one and the same fault. -/
def EndsAlike : Result → Result → Prop
  | .next t, .next t' => Frame unseen t t'
  | .fault e, .fault e' => e = e'
  | _, _ => False

section
variable (s : State) (z : Int) (f : Display) (w : Bool)

theorem frame_withUnseen : Frame unseen s (s.withUnseen z f w) :=
  (((frame_setSt s z).mono (by decide)).trans ((frame_setDisplay _ f).mono (by decide))).trans
    ((frame_setWait _ w).mono (by decide))

/-- An update that commutes with replacing the unseen pieces. -/
theorem EndsAlike.next_withUnseen {t t' : State} (h : t' = t.withUnseen z f w) : EndsAlike (.next t) (.next t') := by
  subst h
  exact frame_withUnseen t z f w

theorem EndsAlike.ite {c : Prop} [Decidable c] {t t' : State} {e : Fault} (h : Frame unseen t t') :
    EndsAlike (if c then .next t else .fault e) (if c then .next t' else .fault e) := by
  by_cases hc : c
  · rw [if_pos hc, if_pos hc]; exact h
  · rw [if_neg hc, if_neg hc]; rfl

theorem skipIf_withUnseen (c : Bool) : skipIf c (s.withUnseen z f w) = (skipIf c s).withUnseen z f w := by
  rw [skipIf_eq, skipIf_eq]; rfl

theorem storeCells_alike (cells : List Host.Cell) :
    EndsAlike (storeCells cells s) (storeCells cells (s.withUnseen z f w)) := by
  unfold storeCells
  cases firstOutside (cells.map Prod.fst) with
  | none => exact .next_withUnseen z f w rfl
  | some a => rfl

theorem loadRegisters_withUnseen (x : Reg) :
    loadRegisters (s.withUnseen z f w) x = (loadRegisters s x).withUnseen z f w :=
  List.foldl_hom (fun t : State => t.withUnseen z f w) (fun _ _ => rfl)

/-- By instruction: those that write an unseen piece write it to a value that is as unseen, the rest leave it; and a
check reads no unseen piece. -/
theorem exec_alike (i : Instr) : EndsAlike (exec i s) (exec i (s.withUnseen z f w)) := by
  cases i with
  | cls => exact .next_withUnseen z Display.clear w rfl
  | ret =>
    by_cases h : s.sp.val = 0
    · rw [exec_ret_empty s h, exec_ret_empty (s.withUnseen z f w) h]; rfl
    · rw [exec_ret_saved s h, exec_ret_saved (s.withUnseen z f w) h]; exact .next_withUnseen z f w rfl
  | jp nnn | lda nnn | jpv0 nnn | sys nnn => exact .next_withUnseen z f w rfl
  | call nnn =>
    by_cases h : s.sp.val < 16
    · rw [exec_call_room s nnn h, exec_call_room (s.withUnseen z f w) nnn h]; exact .next_withUnseen z f w rfl
    · have hfull : s.sp.val = 16 := by omega
      rw [exec_call_full s nnn hfull, exec_call_full (s.withUnseen z f w) nnn hfull]; rfl
  | sei x nn | snei x nn => exact .next_withUnseen z f w (skipIf_withUnseen s z f w _)
  | ser x y | sner x y => exact .next_withUnseen z f w (skipIf_withUnseen s z f w _)
  | skp x | sknp x => exact .next_withUnseen z f w (skipIf_withUnseen s z f w _)
  | ldi x nn | addi x nn | rnd x nn => exact .next_withUnseen z f w rfl
  | mov x y | or x y | and x y | xor x y | add x y | sub x y | subn x y | shr x y | shl x y =>
    exact .next_withUnseen z f w rfl
  | gdt x | sdt x | adda x => exact .next_withUnseen z f w rfl
  | drw x y n =>
    rw [exec_drw, exec_drw]
    exact .ite (frame_withUnseen (s.setDisplay (drawnDisplay s x y n)) z (drawnDisplay (s.withUnseen z f w) x y n) w)
  | wkey x => exact .next_withUnseen z f true rfl
  | sst x => exact .next_withUnseen ((s.reg x).toNat : Int) f w rfl
  | fnt x =>
    by_cases h : (s.reg x).toNat ≤ 15
    · rw [exec_fnt_digit s x h, exec_fnt_digit (s.withUnseen z f w) x h]; exact .next_withUnseen z f w rfl
    · have hno : (s.reg x).toNat > 15 := Nat.not_le.mp h
      rw [exec_fnt_noDigit s x hno, exec_fnt_noDigit (s.withUnseen z f w) x hno]; rfl
  | bcd x => exact storeCells_alike s z f w _
  | stm x => exact storeCells_alike s z f w _
  | ldm x =>
    rw [exec_ldm, exec_ldm, loadRegisters_withUnseen]
    exact .ite (frame_withUnseen (loadRegisters s x) z f w)

end

theorem EndsAlike.next {r r' : Result} {t : State} (h : EndsAlike r r') (hr : r = .next t) :
    ∃ t', r' = .next t' ∧ Frame unseen t t' := by
  subst hr
  cases r' with
  | next t' => exact ⟨t', rfl, h⟩
  | fault e | refused ρ => exact h.elim

theorem EndsAlike.fault {r r' : Result} {e : Fault} (h : EndsAlike r r') (hr : r = .fault e) : r' = .fault e := by
  subst hr
  cases r' with
  | fault e' => exact congrArg Host.Outcome.fault (Eq.symm h)
  | next t | refused ρ => exact h.elim

end Sys2Proof.Machine

open Sys2Proof Sys2Proof.Machine

/-- Settles O60: the two runs of an instruction end alike. -/
theorem programCannotSeeSoundScreenOrWait : Obligations.ProgramCannotSeeSoundScreenOrWait := by
  intro i s z f w
  have halike := exec_alike s z f w i
  exact ⟨fun _ => halike.next, fun _ => halike.fault⟩

end

section
/-! PROOFS. The cycle (40_cycle_and_control R80 to R84): the five ways one goes, said once with the result of each, and
the obligations O6 to O13 and O53. -/

namespace Sys2Proof.Machine

/-- The five ways a cycle goes, with what it answers. -/
inductive Cycle (s : State) : EventResult → Prop where
  | waiting (hwait : ¬ Dispatching s) : Cycle s (cycleDone (beginCycle s))
  | fetchRefused (hd : Dispatching s) (hpc : s.pc.toNat ≥ 0xFFF) :
      Cycle s (eventAborted (.fetchOutOfRange s.pc) (beginCycle s))
  | reserved (hd : Dispatching s) (hpc : s.pc.toNat < 0xFFF) {e : DecodeError} (hdec : decode (nextWord s) = .error e) :
      Cycle s (eventAborted (.reservedOpcode (nextWord s)) (fetchedState s))
  | completed (hd : Dispatching s) (hpc : s.pc.toNat < 0xFFF) {i : Instr} (hdec : decode (nextWord s) = .ok i)
      {t : State} (hexec : exec i (fetchedState s) = .next t) : Cycle s (cycleDone t)
  | faulted (hd : Dispatching s) (hpc : s.pc.toNat < 0xFFF) {i : Instr} (hdec : decode (nextWord s) = .ok i)
      {e : Fault} (hexec : exec i (fetchedState s) = .fault e) : Cycle s (eventAborted e (fetchedState s))

variable (s : State)

theorem dispatchWord_ok {op : OpWord} {i : Instr} (h : decode op = .ok i) : dispatchWord op s = exec i s := by
  rw [dispatchWord, h]

theorem dispatchWord_error {op : OpWord} {e : DecodeError} (h : decode op = .error e) :
    dispatchWord op s = .fault (.reservedOpcode op) := by
  rw [dispatchWord, h]; rfl

theorem tick_cycle : Cycle s (tick s) := by
  rcases cycle_cases s with h | ⟨h, hpc⟩ | ⟨h, hpc⟩
  · rw [tick_waiting s h]; exact .waiting h
  · rw [tick_fetch_refused s h hpc]; exact .fetchRefused h hpc
  · rw [tick_dispatch s h hpc]
    cases hdec : decode (nextWord s) with
    | error e => rw [dispatchWord_error _ hdec]; exact .reserved h hpc hdec
    | ok i =>
      rw [dispatchWord_ok _ hdec]
      cases hexec : exec i (fetchedState s) with
      | next t => exact .completed h hpc hdec hexec
      | fault e => exact .faulted h hpc hdec hexec
      | refused r => exact absurd hexec (exec_ends _ i).not_refused

variable {s}

theorem step_decoded {i : Instr} (h : Dispatching s) (hpc : s.pc.toNat < 0xFFF) (hdec : decode (nextWord s) = .ok i) :
    step s = exec i (fetchedState s) := by
  rw [step_dispatch s h hpc, dispatchWord_ok _ hdec]

theorem tick_decoded {i : Instr} {t : State} (h : Dispatching s) (hpc : s.pc.toNat < 0xFFF)
    (hdec : decode (nextWord s) = .ok i) (hexec : exec i (fetchedState s) = .next t) : tick s = cycleDone t := by
  rw [tick_dispatch s h hpc, dispatchWord_ok _ hdec, hexec]

/-! ### The state a cycle begins with -/

theorem not_dispatching (hw : s.wait = true) (hk : s.key = none) : ¬ Dispatching s := by
  simp [Dispatching, hw, hk]

theorem beginCycle_of_no_key (hk : s.key = none) : beginCycle s = { s with
    dt := decrementTimer s.params.timerFloor s.dt
    st := decrementTimer s.params.timerFloor s.st } := by
  rw [beginCycle_eq, hk, Option.isNone_none, Bool.and_true]

/-- Steps 1 and 2 of a cycle that dispatches: the fetched state but for PC. -/
theorem beginCycle_dispatching (h : Dispatching s) : beginCycle s = { fetchedState s with pc := s.pc } := by
  rw [← fetched_eq s h, beginCycle_eq]; rfl

/-! ### A wait of several cycles -/

theorem step_keyWait (hw : s.wait = true) (hk : s.key = none) : step s = .next { s with
    dt := decrementTimer s.params.timerFloor s.dt
    st := decrementTimer s.params.timerFloor s.st } := by
  rw [step_waiting s (not_dispatching hw hk), beginCycle_of_no_key hk]

theorem core_run_step {s t : core.State} (k : Nat) (h : core.step s = .next t) : core.run (k + 1) s = core.run k t := by
  rw [core_run_succ, h]

/-! ### What an instruction's frame says of the timers and the latch -/

theorem eq_sdt_of_writes_dt {i : Instr} (h : .dt ∈ writesParts i) : ∃ x, i = .sdt x := by
  cases i
  case sdt x => exact ⟨x, rfl⟩
  all_goals simp [writesParts] at h

theorem eq_sst_of_writes_st {i : Instr} (h : .st ∈ writesParts i) : ∃ x, i = .sst x := by
  cases i
  case sst x => exact ⟨x, rfl⟩
  all_goals simp [writesParts] at h

theorem key_not_mem_writesParts (i : Instr) : .key ∉ writesParts i := by
  cases i <;> simp [writesParts]

/-- Steps 1 and 2 leave the fetched state but for PC and, while a key is awaited, WAIT. -/
theorem frame_beginCycle : Frame [.pc, .wait] (fetchedState s) (beginCycle s) := by
  have hbegin : beginCycle s = ((fetchedState s).setPc s.pc).setWait (s.wait && s.key.isNone) := beginCycle_eq s
  rw [hbegin]
  exact ((frame_setPc _ _).mono (by decide)).trans ((frame_setWait _ _).mono (by decide))

/-- A piece that the instruction of the cycle does not write is, after it, that of the fetched state. -/
theorem Cycle.agree {r : EventResult} (h : Cycle s r) {p : Part} (hp : p ∉ [.pc, .wait])
    (hwrites : ∀ i, Dispatching s → s.pc.toNat < 0xFFF → decode (nextWord s) = .ok i → p ∉ writesParts i) :
    Agree (fetchedState s) r.state p := by
  cases h with
  | waiting | fetchRefused => exact frame_beginCycle p hp
  | reserved | faulted => exact Agree.refl _ p
  | completed hd hpc hdec hexec => exact ((exec_ends _ _).next hexec).parts p (hwrites _ hd hpc hdec)

variable (s)

theorem tick_dt (h : ¬ (Dispatching s ∧ s.pc.toNat < 0xFFF ∧ ∃ x, decode (nextWord s) = .ok (.sdt x))) :
    (tick s).state.dt = decrementTimer s.params.timerFloor s.dt := by
  refine (tick_cycle s).agree (p := .dt) (by decide) fun i hd hpc hdec hmem => h ⟨hd, hpc, ?_⟩
  obtain ⟨x, rfl⟩ := eq_sdt_of_writes_dt hmem
  exact ⟨x, hdec⟩

theorem tick_st (h : ¬ (Dispatching s ∧ s.pc.toNat < 0xFFF ∧ ∃ x, decode (nextWord s) = .ok (.sst x))) :
    (tick s).state.st = decrementTimer s.params.timerFloor s.st := by
  refine (tick_cycle s).agree (p := .st) (by decide) fun i hd hpc hdec hmem => h ⟨hd, hpc, ?_⟩
  obtain ⟨x, rfl⟩ := eq_sst_of_writes_st hmem
  exact ⟨x, hdec⟩

theorem tick_key : (tick s).state.key = s.key :=
  (tick_cycle s).agree (p := .key) (by decide) fun i _ _ _ => key_not_mem_writesParts i

end Sys2Proof.Machine

open Sys2Proof Sys2Proof.Machine

/-- Settles O6: the state named is the fetched state. -/
theorem stepRunsDecodedInstruction : Obligations.StepRunsDecodedInstruction := fun _ _ => step_decoded

/-- Settles O7: the wake-up test finds no key, so nothing is fetched. -/
theorem waitingCycleOnlyLowersTimers : Obligations.WaitingCycleOnlyLowersTimers := fun _ => step_keyWait

/-- Settles O8, by induction on the number of cycles: each leaves a state that waits as the one before. -/
theorem waitLastsUntilPress : Obligations.WaitLastsUntilPress := by
  intro s k hw hk
  induction k generalizing s with
  | zero => rfl
  | succ k ih => exact (core_run_step k (step_keyWait hw hk)).trans (ih _ hw hk)

/-- Settles O9: a refused fetch comes before PC is advanced. -/
theorem fetchPastEndIsRefused : Obligations.FetchPastEndIsRefused := by
  intro s hd hpc
  refine ⟨step_fetch_refused s hd hpc, ?_⟩
  rw [tick_fetch_refused s hd hpc, eventAborted, beginCycle_eq]

/-- Settles O10: the decoder refuses exactly these words, and dispatch names the word. -/
theorem reservedWordFaults : Obligations.ReservedWordFaults := by
  intro s hd hpc hres
  rw [step_dispatch s hd hpc, dispatchWord_error _ (decode_of_reserved hres)]

/-- Settles O11: of the five ways a cycle goes, three are aborted. -/
theorem abortedCycleChangesNothingElse : Obligations.AbortedCycleChangesNothingElse := by
  intro s e he
  have hcycle := tick_cycle s
  generalize tick s = r at he hcycle
  cases hcycle with
  | waiting | completed => cases he
  | fetchRefused hd hpc => cases he; exact ⟨rfl, .inl ⟨rfl, hpc, beginCycle_dispatching hd⟩⟩
  | reserved hd hpc hdec => exact ⟨rfl, .inr ⟨hpc, rfl⟩⟩
  | faulted hd hpc hdec hexec => exact ⟨rfl, .inr ⟨hpc, rfl⟩⟩

/-- Settles O13: the instruction that sets a timer is the one whose frame does not hold it. -/
theorem timersFallEveryCycle : Obligations.TimersFallEveryCycle := by
  intro s
  refine ⟨tick_dt s, tick_st s, fun x hd hpc hdec => ?_, fun x hd hpc hdec => ?_, fun _ => rfl, fun _ _ => rfl⟩
  · rw [tick_decoded hd hpc hdec (exec_sdt _ x)]; rfl
  · rw [tick_decoded hd hpc hdec (exec_sst _ x)]; rfl

/-- Settles O53: WAIT is the one piece that FX0A writes, and a latched key makes the waiting core dispatch. -/
theorem waitForKeyEntersAndLeaves : Obligations.WaitForKeyEntersAndLeaves := by
  refine ⟨fun x s => ⟨_, exec_wkey s x, rfl, frame_setWait s true⟩, fun s k i _ hk hpc hdec => ?_⟩
  have hd : Dispatching s := .inr (by rw [hk]; rfl)
  exact ⟨step_decoded hd hpc hdec, rfl⟩

end

section
/-! PROOFS. The host's events (60_exceptions R200 to R206): what Load and Press answer within and outside their
contract, what Reset leaves, who writes the latch, and 0NNN as a whole cycle; the obligations O12, O18, O20, O21, O23
and O24. -/

namespace Sys2Proof.Machine

variable (s : State)

theorem hostEvent_reset :
    hostEvent .reset s = eventDone { State.reset with params := s.params, rndIndex := s.rndIndex } := rfl

/-- The three ways a Load goes: refused by its first word outside the contract, refused by its length, done. -/
theorem hostEvent_load_cases (words : List Nat) :
    (∃ w ∈ words, w ≥ 0x10000 ∧ hostEvent (.load words) s = eventRefused (.loadWordOutOfContract w) s) ∨
    ((∀ w ∈ words, w < 0x10000) ∧ 0x200 + 2 * words.length > 0x1000 ∧
      hostEvent (.load words) s = eventAborted (.memWriteOutOfRange 0x1000) s) ∨
    ((∀ w ∈ words, w < 0x10000) ∧ 0x200 + 2 * words.length ≤ 0x1000 ∧
      hostEvent (.load words) s = eventDone ((s.putCells (programCells words)).setPc 0x200#13)) := by
  cases hfind : words.find? (fun w => decide (w ≥ 0x10000)) with
  | some w =>
    refine .inl ⟨w, List.mem_of_find?_eq_some hfind, by simpa using List.find?_some hfind, ?_⟩
    rw [hostEvent, loadEvent, hfind]
  | none =>
    have hw : ∀ w ∈ words, w < 0x10000 := by simpa using hfind
    rcases Nat.lt_or_ge 0x1000 (0x200 + 2 * words.length) with hlong | hfits
    · exact .inr (.inl ⟨hw, hlong, hostEvent_load_tooLong s hw hlong⟩)
    · exact .inr (.inr ⟨hw, hfits, hostEvent_load_fits s hw hfits⟩)

theorem hostEvent_press {k : Nat} (h : k < 16) : hostEvent (.press k) s = eventDone (s.setKey (some ⟨k, h⟩)) :=
  dif_pos h

theorem hostEvent_press_refused {k : Nat} (h : k ≥ 16) :
    hostEvent (.press k) s = eventRefused (.pressCodeOutOfContract k) s :=
  dif_neg (Nat.not_lt.mpr h)

/-- No event but a cycle gives the strobe. -/
theorem hostEvent_disp {e : Event} (h : e ≠ .tick) : (hostEvent e s).disp = none := by
  cases e with
  | reset | release => rfl
  | load words =>
    rcases hostEvent_load_cases s words with ⟨w, -, -, he⟩ | ⟨-, -, he⟩ | ⟨-, -, he⟩
    · rw [he]; rfl
    · rw [he]; rfl
    · rw [he]; rfl
  | press k =>
    rcases Nat.lt_or_ge k 16 with hk | hk
    · rw [hostEvent_press s hk]; rfl
    · rw [hostEvent_press_refused s hk]; rfl
  | tick => exact absurd rfl h

theorem hostEvent_load_key (words : List Nat) : (hostEvent (.load words) s).state.key = s.key := by
  rcases hostEvent_load_cases s words with ⟨w, -, -, he⟩ | ⟨-, -, he⟩ | ⟨-, -, he⟩
  · rw [he]; rfl
  · rw [he]; rfl
  · rw [he]; rfl

/-! ### What Reset leaves -/

/-- An empty memory reads as the font below 0x050 and as 0 above it. -/
theorem resetByte_font (f : Font) (k : Fin 80) : resetByte f k.val = f[k.val] :=
  dif_pos (f.size_toArray.symm ▸ k.isLt : k.val < f.toArray.size)

theorem resetByte_above (f : Font) {a : Nat} (h : 80 ≤ a) : resetByte f a = 0 :=
  dif_neg (f.size_toArray.symm ▸ Nat.not_lt.mpr h : ¬ a < f.toArray.size)

/-! ### 0NNN -/

theorem decode_sys {op : OpWord} (hop : op.toNat < 0x1000) (hcls : op ≠ 0x00E0#16) (hret : op ≠ 0x00EE#16) :
    decode op = .ok (.sys (fieldNNN op)) := by
  have hP : fieldP op = 0 := Fin.ext ((fieldP_val op).trans (Nat.div_eq_of_lt hop))
  rw [decode_family0 hP, if_neg hcls, if_neg hret]

end Sys2Proof.Machine

open Sys2Proof Sys2Proof.Machine

/-- Settles O12: a completed cycle shows the display it leaves; what is not `ok` is aborted. -/
theorem strobeShowsDisplayOfCompletedCycle : Obligations.StrobeShowsDisplayOfCompletedCycle := by
  intro s
  have hcycle := tick_cycle s
  generalize tick s = r at hcycle
  refine ⟨fun hok => ?_, fun hnot => ?_, fun e => hostEvent_disp s⟩
  · cases hcycle with
    | waiting | completed => rfl
    | fetchRefused | reserved | faulted => cases hok
  · cases hcycle with
    | waiting | completed => exact absurd rfl hnot
    | fetchRefused | reserved | faulted => rfl

/-- Settles O18: Reset answers one state whatever the one before, but for the parameters and the count of draws. -/
theorem resetReinitialisesEverything : Obligations.ResetReinitialisesEverything := by
  intro s
  rw [hostEvent_reset]
  refine ⟨rfl, fun k => resetByte_font s.params.font k, fun a ha => resetByte_above s.params.font ha, fun r => ?_,
    rfl, rfl, fun k => ?_, rfl, rfl, rfl, Display.pixel_clear, rfl, rfl, rfl⟩
  · exact Vector.getElem_replicate r.isLt
  · exact Vector.getElem_replicate k.isLt

/-- Settles O20: neither refusal writes anything. -/
theorem loadTooLongChangesNothing : Obligations.LoadTooLongChangesNothing := by
  intro words s hlong
  rcases hostEvent_load_cases s words with ⟨w, -, -, he⟩ | ⟨-, -, he⟩ | ⟨-, hfits, -⟩
  · rw [he]; rfl
  · rw [he]; rfl
  · exact absurd hlong (Nat.not_lt.mpr hfits)

/-- Settles O21: the check of the contract stands before everything else. -/
theorem callsOutsideContractAreRefused : Obligations.CallsOutsideContractAreRefused := by
  refine fun s => ⟨fun words hbad => ?_, fun k hk => ?_⟩
  · obtain ⟨v, hv, hbig⟩ := hbad
    rcases hostEvent_load_cases s words with ⟨w, hmem, hw, he⟩ | ⟨hall, -⟩ | ⟨hall, -⟩
    · rw [he]; exact ⟨⟨w, hmem, hw, rfl⟩, rfl⟩
    · exact absurd (hall v hv) (Nat.not_lt.mpr hbig)
    · exact absurd (hall v hv) (Nat.not_lt.mpr hbig)
  · rw [hostEvent_press_refused s hk]; exact ⟨rfl, rfl⟩

/-- Settles O23: no instruction has the latch among the pieces it writes, and a Load sets memory and PC. -/
theorem onlyHostWritesLatch : Obligations.OnlyHostWritesLatch := by
  intro e s
  refine ⟨fun hchange => ?_, fun k hk => ?_, rfl, rfl⟩
  · cases e with
    | reset => exact .inl rfl
    | load words => exact absurd (hostEvent_load_key s words) hchange
    | press k => exact .inr (.inr ⟨k, rfl⟩)
    | release => exact .inr (.inl rfl)
    | tick => exact absurd (tick_key s) hchange
  · rw [hostEvent_press s hk]; exact ⟨rfl, rfl⟩

/-- Settles O24: what is left of such a cycle is steps 1 to 3, the fetched state. -/
theorem sysIsNoOperation : Obligations.SysIsNoOperation := by
  refine ⟨fun nnn s => exec_sys s nnn, fun op hop hcls hret => ⟨_, decode_sys hop hcls hret⟩,
    fun s hd hpc hop hcls hret => ?_⟩
  rw [step_decoded hd hpc (decode_sys hop hcls hret), exec_sys]

end

section
/-! PROOFS. The invariant of 10_state R31: one lemma per update that keeps it, every instruction, the cycle, the host's
events and their runs; the obligations O14 to O17. -/

namespace Sys2Proof.Machine

section
variable {s : State} (h : CoreInv s)
include h

theorem CoreInv.setReg (x : Reg) (b : Byte) : CoreInv (s.setReg x b) := h.congr rfl h.pc rfl rfl rfl rfl
theorem CoreInv.setIndex (i : Addr) : CoreInv (s.setIndex i) := h.congr rfl h.pc rfl rfl rfl rfl
theorem CoreInv.setDisplay (f : Display) : CoreInv (s.setDisplay f) := h.congr rfl h.pc rfl rfl rfl rfl
theorem CoreInv.setKey (k : Option Key) : CoreInv (s.setKey k) := h.congr rfl h.pc rfl rfl rfl rfl
theorem CoreInv.setWait (w : Bool) : CoreInv (s.setWait w) := h.congr rfl h.pc rfl rfl rfl rfl
theorem CoreInv.setRndIndex (n : Nat) : CoreInv (s.setRndIndex n) := h.congr rfl h.pc rfl rfl rfl rfl

theorem CoreInv.setPc {p : PcWord} (hp : p.toNat ≤ 0x1002) : CoreInv (s.setPc p) := h.congr rfl hp rfl rfl rfl rfl

theorem CoreInv.setStack {k : Vector PcWord 16} (hk : ∀ j : Fin 16, k[j].toNat ≤ 0x1002) (q : Fin 17) :
    CoreInv (s.setStack k q) := ⟨h.mem, h.pc, hk, h.dt, h.st⟩

theorem CoreInv.setDt {t : Int} (ht : timerInRange s.params.timerFloor t) : CoreInv (s.setDt t) :=
  ⟨h.mem, h.pc, h.stack, ht, h.st⟩

theorem CoreInv.setSt {t : Int} (ht : timerInRange s.params.timerFloor t) : CoreInv (s.setSt t) :=
  ⟨h.mem, h.pc, h.stack, h.dt, ht⟩

theorem CoreInv.putCells {cells : List Host.Cell} (hc : ∀ c ∈ cells, c.1 < Config.memSize) :
    CoreInv (s.putCells cells) :=
  ⟨s.putCells_wf h.mem hc, h.pc, h.stack, h.dt, h.st⟩

theorem CoreInv.loadRegisters (x : Reg) : CoreInv (loadRegisters s x) := by
  rw [loadRegisters_frame]
  exact h.congr rfl h.pc rfl rfl rfl rfl

/-- A jump to a 12-bit address. -/
theorem CoreInv.setPc_addr (nnn : Addr) : CoreInv (s.setPc (nnn.setWidth 13)) :=
  h.setPc (by rw [addr_setWidth_toNat]; omega)

/-- A skip from a PC that a fetch has left. -/
theorem CoreInv.skipIf (c : Bool) (hpc : s.pc.toNat ≤ 0x1000) : CoreInv (skipIf c s) := by
  have hskip : (s.pc + 2).toNat ≤ 0x1002 := by
    have : (2 : PcWord).toNat = 2 := rfl
    rw [BitVec.toNat_add]
    omega
  cases c with
  | true => exact h.setPc hskip
  | false => exact h

/-- Every slot of the stack after a push is an old one or PC. -/
theorem CoreInv.stack_set {k : Nat} (hk : k < 16) (j : Fin 16) : (s.stack.set k s.pc)[j].toNat ≤ 0x1002 := by
  rw [Fin.getElem_fin, Vector.getElem_set]
  split
  case isTrue => exact h.pc
  case isFalse => exact h.stack j

/-- A storing instruction writes only cells inside memory. -/
theorem CoreInv.storeCells (cells : List Host.Cell) : Ends CoreInv (fun _ => True) (storeCells cells s) := by
  rcases storeCells_cases s cells with ⟨hdone, hin⟩ | ⟨a, hfault, -⟩
  · rw [hdone]; exact h.putCells hin
  · rw [hfault]; trivial

end

/-- A byte is in the range of a timer whatever the floor. -/
theorem timerInRange_byte (floor : Option Nat) (b : Byte) : timerInRange floor (b.toNat : Int) := by
  have hb := b.isLt
  exact ⟨by omega, fun n _ => by omega⟩

section
variable {s : State} (h : CoreInv s)
include h

/-- By instruction, from a PC that a fetch has left; each check keeps the cells it lets through inside memory. -/
theorem exec_keepsInv (hpc : s.pc.toNat ≤ 0x1000) (i : Instr) : Ends CoreInv (fun _ => True) (exec i s) := by
  cases i with
  | cls => exact h.setDisplay _
  | ret =>
    by_cases hsp : s.sp.val = 0
    · rw [exec_ret_empty s hsp]; trivial
    · rw [exec_ret_saved s hsp]
      exact (h.setStack h.stack _).setPc (h.stack ⟨s.sp.val - 1, by omega⟩)
  | jp nnn => exact h.setPc_addr nnn
  | call nnn =>
    by_cases hsp : s.sp.val < 16
    · rw [exec_call_room s nnn hsp]
      exact (h.setStack (h.stack_set hsp) _).setPc_addr nnn
    · rw [exec_call_full s nnn (by omega)]; trivial
  | sei x nn | snei x nn => exact h.skipIf _ hpc
  | ser x y | sner x y => exact h.skipIf _ hpc
  | skp x | sknp x => exact h.skipIf _ hpc
  | ldi x nn | addi x nn => exact h.setReg x _
  | mov x y | or x y | and x y | xor x y => exact h.setReg x _
  | add x y | sub x y | subn x y => exact (h.setReg x _).setReg VF _
  | shr x y | shl x y => exact (h.setReg VF _).setReg x _
  | gdt x => exact h.setReg x _
  | lda nnn => exact h.setIndex nnn
  | jpv0 nnn =>
    refine h.setPc ?_
    rw [offsetTarget_toNat]
    omega
  | rnd x nn => exact (h.setRndIndex _).setReg x _
  | drw x y n =>
    rw [exec_drw]
    exact .ite (fun _ => h.setDisplay _) (fun _ => trivial)
  | wkey x => exact h.setWait true
  | sdt x => exact h.setDt (timerInRange_byte _ _)
  | sst x => exact h.setSt (timerInRange_byte _ _)
  | adda x => exact (h.setIndex _).setReg VF _
  | fnt x =>
    by_cases hdigit : (s.reg x).toNat ≤ 15
    · rw [exec_fnt_digit s x hdigit]; exact h.setIndex _
    · rw [exec_fnt_noDigit s x (Nat.not_le.mp hdigit)]; trivial
  | bcd x => exact h.storeCells _
  | stm x => exact h.storeCells _
  | ldm x =>
    rw [exec_ldm]
    exact .ite (fun _ => h.loadRegisters x) (fun _ => trivial)
  | sys nnn => exact h

theorem decrementTimers_keepsInv : CoreInv (decrementTimers s) :=
  (h.setDt (decrementTimer_range h.dt.1)).setSt (decrementTimer_range h.st.1)

theorem beginCycle_keepsInv : CoreInv (beginCycle s) := by
  rw [beginCycle, wakeTest_eq]
  exact (decrementTimers_keepsInv h).setWait _

theorem fetchedState_keepsInv (hpc : s.pc.toNat < 0xFFF) : CoreInv (fetchedState s) := by
  refine ((decrementTimers_keepsInv h).setWait false).setPc (p := s.pc + 2) ?_
  rw [fetched_pc s hpc]
  omega

theorem fetched_exec_keepsInv (hpc : s.pc.toNat < 0xFFF) {i : Instr} {t : State}
    (hexec : exec i (fetchedState s) = .next t) : CoreInv t := by
  have hfetched : (s.pc + 2).toNat ≤ 0x1000 := by
    rw [fetched_pc s hpc]
    omega
  exact (exec_keepsInv (fetchedState_keepsInv h hpc) hfetched i).next hexec

theorem Cycle.keepsInv {r : EventResult} (hr : Cycle s r) : CoreInv r.state := by
  cases hr with
  | waiting | fetchRefused => exact beginCycle_keepsInv h
  | reserved _ hpc | faulted _ hpc => exact fetchedState_keepsInv h hpc
  | completed _ hpc _ hexec => exact fetched_exec_keepsInv h hpc hexec

theorem step_keepsInv {t : State} (hs : step s = .next t) : CoreInv t := by
  rcases step_next_cases s hs with ⟨-, rfl⟩ | ⟨-, hpc, i, -, hexec⟩
  · exact beginCycle_keepsInv h
  · exact fetched_exec_keepsInv h hpc hexec

end

/-- Reset is met under any parameters: nothing of the state depends on them. -/
theorem reset_coreInv (q : Params) (n : Nat) : CoreInv { State.reset with params := q, rndIndex := n } where
  mem := Memory.nil_wf
  pc := Nat.zero_le _
  stack := (by decide : ∀ k : Fin 16, State.reset.stack[k].toNat ≤ 0x1002)
  dt := timerInRange_byte q.timerFloor 0
  st := timerInRange_byte q.timerFloor 0

theorem programCells_inside {words : List Nat} (h : 0x200 + 2 * words.length ≤ 0x1000) :
    ∀ c ∈ programCells words, c.1 < Config.memSize := by
  intro c hc
  have hsize : Config.memSize = 0x1000 := rfl
  obtain ⟨k, hk, rfl | rfl⟩ := (mem_programCells words c).mp hc
  · dsimp only; omega
  · dsimp only; omega

theorem load_keepsInv {s : State} (h : CoreInv s) (words : List Nat) : CoreInv (hostEvent (.load words) s).state := by
  rcases hostEvent_load_cases s words with ⟨w, -, -, he⟩ | ⟨-, -, he⟩ | ⟨-, hfits, he⟩
  · rw [he]; exact h
  · rw [he]; exact h
  · rw [he]; exact (h.putCells (programCells_inside hfits)).setPc (by decide)

theorem press_keepsInv {s : State} (h : CoreInv s) (k : Nat) : CoreInv (hostEvent (.press k) s).state := by
  rcases Nat.lt_or_ge k 16 with hk | hk
  · rw [hostEvent_press s hk]; exact h.setKey _
  · rw [hostEvent_press_refused s hk]; exact h

theorem hostEvent_keepsInv {s : State} (h : CoreInv s) (e : Event) : CoreInv (hostEvent e s).state := by
  cases e with
  | reset => exact reset_coreInv s.params s.rndIndex
  | load words => exact load_keepsInv h words
  | press k => exact press_keepsInv h k
  | release => exact h.setKey none
  | tick => exact (tick_cycle s).keepsInv h

end Sys2Proof.Machine

open Sys2Proof Sys2Proof.Machine

/-- Settles O14: a step is a wait or an instruction from a PC that a fetch has left, and each keeps the invariant. -/
theorem stepKeepsInvariant : Obligations.StepKeepsInvariant := fun _ _ h => step_keepsInv h

/-- Settles O15, by event; a refused or aborted one leaves the state it found or the fetched one. -/
theorem hostEventsKeepInvariant : Obligations.HostEventsKeepInvariant := fun e _ h => hostEvent_keepsInv h e

/-- Settles O16: the state after Reset at the parameters taken. -/
theorem resetMeetsInvariant : Obligations.ResetMeetsInvariant := reset_coreInv paramsTaken 0

/-- Settles O17, by induction on the run. -/
theorem safeRunsKeepInvariant : Obligations.SafeRunsKeepInvariant := by
  intro es s t h hrun
  induction hrun with
  | done s => exact h
  | event _ _ ih => exact ih (hostEvent_keepsInv h _)

end
